-- ==== Sys2Proof/Word.lean ====
section
/-! DEFINITION. The word types of the PCS pipeline core (spec/00_scope.md R7 to R10, R14). -/

namespace Sys2Proof

/-- A register value, memory word, ALU result or data address: 32 bits, two's complement
(R8, R10, R14; decisions D2 and D12). `+` and `-` on it are the `+w` and `-w` of R14. -/
abbrev Word := BitVec 32

/-- A register number, 0 to 31: "A register number is 5 bits wide" (R7). -/
abbrev Reg := BitVec 5

/-- The 16 bits of an immediate, `imm16` of R82; its signed reading is the record's `imm`
in [-32768, 32767] (R9, R75). -/
abbrev Imm := BitVec 16

end Sys2Proof
end

