-- ==== Sys2Proof/Syntax.lean ====
section
/-! DEFINITION. The instruction record (spec/30_encoding.md R70 to R75): the six operations, each with
all the operand fields a record has, used or not, and the position that travels with a record. -/

namespace Sys2Proof

/-- The operation kinds; there is no other (R71). -/
inductive Op where
  | nop
  | add
  | sub
  | lw
  | sw
  | beq
  deriving DecidableEq, Repr

/-- The spelling of an operation in the assembler syntax (R86). -/
def Op.mnemonic : Op → String
  | .nop => "nop"
  | .add => "add"
  | .sub => "sub"
  | .lw => "lw"
  | .sw => "sw"
  | .beq => "beq"

/-- The fields `op`, `rd`, `ra`, `rb` and `imm` of an instruction record (R70), one constructor per row
of the opcode table. Every constructor carries all four operand fields, because an unused field is part
of the record and may hold any value in its range (R73). -/
inductive Instr where
  | nop (rd ra rb : Reg) (imm : Imm)
  | add (rd ra rb : Reg) (imm : Imm)
  | sub (rd ra rb : Reg) (imm : Imm)
  | lw (rd ra rb : Reg) (imm : Imm)
  | sw (rd ra rb : Reg) (imm : Imm)
  | beq (rd ra rb : Reg) (imm : Imm)
  deriving DecidableEq, Repr

/-- The operation kind of a record (R70). -/
def Instr.op : Instr → Op
  | .nop _ _ _ _ => .nop
  | .add _ _ _ _ => .add
  | .sub _ _ _ _ => .sub
  | .lw _ _ _ _ => .lw
  | .sw _ _ _ _ => .sw
  | .beq _ _ _ _ => .beq

/-- The destination field of a record (R70). -/
def Instr.rd : Instr → Reg
  | .nop rd _ _ _ => rd
  | .add rd _ _ _ => rd
  | .sub rd _ _ _ => rd
  | .lw rd _ _ _ => rd
  | .sw rd _ _ _ => rd
  | .beq rd _ _ _ => rd

/-- The source-A field of a record (R70). -/
def Instr.ra : Instr → Reg
  | .nop _ ra _ _ => ra
  | .add _ ra _ _ => ra
  | .sub _ ra _ _ => ra
  | .lw _ ra _ _ => ra
  | .sw _ ra _ _ => ra
  | .beq _ ra _ _ => ra

/-- The source-B field of a record (R70). -/
def Instr.rb : Instr → Reg
  | .nop _ _ rb _ => rb
  | .add _ _ rb _ => rb
  | .sub _ _ rb _ => rb
  | .lw _ _ rb _ => rb
  | .sw _ _ rb _ => rb
  | .beq _ _ rb _ => rb

/-- The immediate field of a record (R70), as its 16 bits (R82). -/
def Instr.imm : Instr → Imm
  | .nop _ _ _ imm => imm
  | .add _ _ _ imm => imm
  | .sub _ _ _ imm => imm
  | .lw _ _ _ imm => imm
  | .sw _ _ _ imm => imm
  | .beq _ _ _ imm => imm

/-- An instruction record with its position in program order, `idx : Int` (R70, R74). -/
structure Record where
  ins : Instr
  idx : Int
  deriving DecidableEq, Repr

/-- What the parser hands to the loader: an operation name and fields not yet known to be in range
(R6, R232). -/
structure RawRecord where
  op : String
  rd : Int
  ra : Int
  rb : Int
  imm : Int
  deriving DecidableEq, Repr

end Sys2Proof
end

