-- ==== Sys2Proof/WellFormed.lean ====
section
/-! DEFINITION. The checks on instructions: the canonical records of R73 (every unused field 0, the
records that the word packing can express) and the contract that a raw record must meet before the core
sees it (R75, R232). -/

namespace Sys2Proof

/-- A canonical record: 0 in every field its operation does not use (R73; the table of uses is R72). -/
def Instr.WellFormed : Instr → Bool
  | .nop rd ra rb imm => rd == 0#5 && ra == 0#5 && rb == 0#5 && imm == 0#16
  | .add _ _ _ imm => imm == 0#16
  | .sub _ _ _ imm => imm == 0#16
  | .lw _ _ rb _ => rb == 0#5
  | .sw rd _ _ _ => rd == 0#5
  | .beq rd _ _ _ => rd == 0#5

/-- Register fields are in [0, 31] (R70, R232). -/
def RawRecord.registersInRange (r : RawRecord) : Bool :=
  decide (0 ≤ r.rd ∧ r.rd ≤ 31 ∧ 0 ≤ r.ra ∧ r.ra ≤ 31 ∧ 0 ≤ r.rb ∧ r.rb ≤ 31)

/-- The immediate is in [-32768, 32767] (R75, R232; decision D25). -/
def RawRecord.immediateInRange (r : RawRecord) : Bool :=
  decide (-32768 ≤ r.imm ∧ r.imm ≤ 32767)

/-- The operation is one of the six names (R71, R232; the spellings of R86). -/
def RawRecord.operationKnown (r : RawRecord) : Bool :=
  r.op == "nop" || r.op == "add" || r.op == "sub" || r.op == "lw" || r.op == "sw" || r.op == "beq"

/-- The program contract for one record (R232). -/
def RawRecord.Accepted (r : RawRecord) : Bool :=
  r.operationKnown && r.registersInRange && r.immediateInRange

end Sys2Proof
end

