-- ==== Sys2Proof/Decode.lean ====
section
/-! DEFINITION. The 32-bit word packing of records (spec/30_encoding.md section 2, R76 to R81): the
decoder of R79, the encoder of R80, and the opcode map of R81. -/

namespace Sys2Proof

/-- Why a word is refused: no line of R79 matches it (R83). -/
inductive DecodeRefusal where
  /-- The word is none of the six patterns of R81. The program that holds it is refused as a whole
  before the first cycle; safe, since the spec refuses it too (D24). -/
  | unlistedWord (w : Word)
  deriving DecidableEq, Repr

/-- Bits 25:21, the `ra` field of both formats (R77, R78). -/
def fieldA (w : Word) : Reg := w.extractLsb' 21 5

/-- Bits 20:16, the `rb` field of the R format and the `t` field of the I format (R77, R78). -/
def fieldB (w : Word) : Reg := w.extractLsb' 16 5

/-- Bits 15:11, the `rd` field of the R format (R77). -/
def fieldD (w : Word) : Reg := w.extractLsb' 11 5

/-- Bits 15:0, the `imm16` field of the I format (R78). -/
def fieldImm (w : Word) : Imm := w.extractLsb' 0 16

/-- Decoding a word (R79): the first matching line wins, and every other word is refused. -/
def decode (w : Word) : Except DecodeRefusal Instr :=
  if w = 0x00000000#32 then .ok (.nop 0#5 0#5 0#5 0#16)
  else if w &&& 0xFC0007FF#32 = 0x00000020#32 then .ok (.add (fieldD w) (fieldA w) (fieldB w) 0#16)
  else if w &&& 0xFC0007FF#32 = 0x00000022#32 then .ok (.sub (fieldD w) (fieldA w) (fieldB w) 0#16)
  else if w &&& 0xFC000000#32 = 0x8C000000#32 then .ok (.lw (fieldB w) (fieldA w) 0#5 (fieldImm w))
  else if w &&& 0xFC000000#32 = 0xAC000000#32 then .ok (.sw 0#5 (fieldA w) (fieldB w) (fieldImm w))
  else if w &&& 0xFC000000#32 = 0x10000000#32 then .ok (.beq 0#5 (fieldA w) (fieldB w) (fieldImm w))
  else .error (.unlistedWord w)

/-- Decoding a word at program position `k` gives the record with `idx = k` (R79). -/
def decodeAt (w : Word) (k : Int) : Except DecodeRefusal Record :=
  (decode w).map fun i => { ins := i, idx := k }

/-- The instruction the decoder reads from the `nbits` low bits of `w`; every bit above them is 0. An
instruction is one word of 32 bits (R76), so bits 31:0 of that number are the word. -/
def decodeTableWord (nbits w : Nat) : Option Instr :=
  match decode (BitVec.ofNat 32 (w % 2 ^ nbits)) with
  | .ok i => some i
  | .error _ => none

/-- The word of the R format with function code `funct` (R77). -/
def encodeR (funct : BitVec 6) (rd ra rb : Reg) : Word :=
  0b000000#6 ++ ra ++ rb ++ rd ++ 0b00000#5 ++ funct

/-- The word of the I format (R78). -/
def encodeI (opcode : BitVec 6) (ra t : Reg) (imm : Imm) : Word :=
  opcode ++ ra ++ t ++ imm

/-- The word of a canonical record (R80). A field that the operation does not use has no bits in the
word. -/
def encode : Instr → Word
  | .nop _ _ _ _ => 0x00000000#32
  | .add rd ra rb _ => encodeR 0b100000#6 rd ra rb
  | .sub rd ra rb _ => encodeR 0b100010#6 rd ra rb
  | .lw rd ra _ imm => encodeI 0b100011#6 ra rd imm
  | .sw _ ra rb imm => encodeI 0b101011#6 ra rb imm
  | .beq _ ra rb imm => encodeI 0b000100#6 ra rb imm

/-- One line of the opcode map: the words with `w &&& mask = pattern` are the operation's (R81). -/
structure OpcodeRow where
  op : Op
  mask : Word
  pattern : Word
  deriving DecidableEq, Repr

/-- The row of the opcode map that an operation has (R81). -/
def opcodeRow : Op → OpcodeRow
  | .nop => { op := .nop, mask := 0xFFFFFFFF#32, pattern := 0x00000000#32 }
  | .add => { op := .add, mask := 0xFC0007FF#32, pattern := 0x00000020#32 }
  | .sub => { op := .sub, mask := 0xFC0007FF#32, pattern := 0x00000022#32 }
  | .lw => { op := .lw, mask := 0xFC000000#32, pattern := 0x8C000000#32 }
  | .sw => { op := .sw, mask := 0xFC000000#32, pattern := 0xAC000000#32 }
  | .beq => { op := .beq, mask := 0xFC000000#32, pattern := 0x10000000#32 }

end Sys2Proof
end

