-- ==== Sys2Proof/Config.lean ====
section
/-! DEFINITION. The implementation parameters (spec/00_scope.md section 3). The widths stand in
Word.lean. The spec leaves no value free: every behaviour it lists as unspecified
(spec/93_implementation_defined.md U1 to U17) is fixed by a decision of its own or is a launch
parameter, so there is no opaque constant here. The launch parameters PROG, MEM_INIT and REG_INIT are
arguments of `Machine.launch` (Machine/Load.lean); this file names the values they take in
`Machine.State.reset`, where nothing has been loaded. -/

namespace Sys2Proof

/-- `NREGS` (R7). -/
def Config.registerCount : Nat := 32

/-- `REG_INIT` of `State.reset`, the values of r1 to r31: all zero. DESIGN CHOICE, unsafe: the spec leaves
REG_INIT open (R24, D4). Log entry 1. -/
def Config.resetRegInit : Vector Word 31 := Vector.replicate 31 0#32

end Sys2Proof
end

