-- ==== Sys2Proof/Machine/State.lean ====
section
/-! DEFINITION. The state of the PCS pipeline core (spec/10_state.md, spec/20_memory.md) as plain data,
the reasons a step can stop, and the state right after reset (R230). -/

namespace Sys2Proof.Machine

/-- The faults of a step. There are none: "The core raises no synchronous exception" (R200), and no
behaviour of this hardware is treated as a fault (spec/93_implementation_defined.md, end of section 1).
So the type has no constructor. -/
inductive Fault where
  deriving DecidableEq, Repr

/-- The refusals. `step` itself never refuses. The loader refuses a program outside the contract of R232 as
a whole, before the first cycle (R83, D24); this is safe, because the spec refuses the same programs. -/
inductive Refusal where
  /-- Raised by no meaning: it would name an instruction of the opcode table that `exec` gives no
  meaning to. Safe. -/
  | notModelled (mnemonic : String)
  /-- Raised by the loader: the record at this position names no operation of R71 (R83, R232). Safe. -/
  | unknownOperation (position : Nat)
  /-- Raised by the loader: a register field of the record at this position is outside [0, 31] (R232).
  Safe. -/
  | registerOutOfRange (position : Nat)
  /-- Raised by the loader: the immediate of the record at this position is outside [-32768, 32767]
  (R75, R232). Safe. -/
  | immediateOutOfRange (position : Nat)
  /-- Raised by the loader: the word at this position is none of the six patterns (R79, R83). Safe. -/
  | unlistedWord (position : Nat)
  deriving DecidableEq, Repr

/-- The data memory as its nonzero cells: pairs of a cell address and the word it holds, in the one
canonical form that `Memory.wf` says. An address that is not listed reads 0 (R52). A cell is a whole
32-bit word with an address of its own (R53, D13), so the pairs hold words, not bytes. Log entry 2. -/
abbrev Memory := List (Nat × Word)

/-- The canonical form, from address `lo` up: addresses strictly rising, each a 32-bit address, and no
entry equal to the 0 that an unlisted address reads as. -/
def Memory.wfFrom (lo : Nat) : Memory → Bool
  | [] => true
  | (k, v) :: rest => decide (lo ≤ k) && decide (k < 2 ^ 32) && v != 0#32 && Memory.wfFrom (k + 1) rest

/-- The canonical form of a memory, so that equal memories are equal data (R67). -/
def Memory.wf (m : Memory) : Bool := Memory.wfFrom 0 m

/-- The record a bubble carries: the canonical nop (R36; decision D18). -/
def bubbleRecord : Record := { ins := .nop 0#5 0#5 0#5 0#16, idx := 0 }

/-- The IF/ID (after-fetch) latch (R32). -/
structure IfIdLatch where
  valid : Bool
  ins : Record
  deriving DecidableEq, Repr

/-- The ID/EX (after-decode) latch; `a` and `b` are plain register-file values (R33). -/
structure IdExLatch where
  valid : Bool
  ins : Record
  a : Word
  b : Word
  deriving DecidableEq, Repr

/-- The EX/MEM (after-execute) latch (R34). -/
structure ExMemLatch where
  valid : Bool
  ins : Record
  alu : Word
  sdata : Word
  taken : Bool
  target : Int
  deriving DecidableEq, Repr

/-- The MEM/WB (after-memory) latch (R35). -/
structure MemWbLatch where
  valid : Bool
  ins : Record
  alu : Word
  ldata : Word
  deriving DecidableEq, Repr

/-- `INVALID` for IF/ID: a bubble (R15, R36). -/
def IfIdLatch.invalid : IfIdLatch := { valid := false, ins := bubbleRecord }

/-- `INVALID` for ID/EX: a bubble (R15, R36). -/
def IdExLatch.invalid : IdExLatch := { valid := false, ins := bubbleRecord, a := 0#32, b := 0#32 }

/-- `INVALID` for EX/MEM: a bubble (R15, R36). -/
def ExMemLatch.invalid : ExMemLatch :=
  { valid := false, ins := bubbleRecord, alu := 0#32, sdata := 0#32, taken := false, target := 0 }

/-- `INVALID` for MEM/WB: a bubble (R15, R36). -/
def MemWbLatch.invalid : MemWbLatch := { valid := false, ins := bubbleRecord, alu := 0#32, ldata := 0#32 }

/-- One set of the four latches (R32 to R35). -/
structure Latches where
  ifid : IfIdLatch
  idex : IdExLatch
  exmem : ExMemLatch
  memwb : MemWbLatch
  deriving DecidableEq, Repr

/-- The empty pipeline (R39). -/
def Latches.empty : Latches :=
  { ifid := IfIdLatch.invalid, idex := IdExLatch.invalid,
    exmem := ExMemLatch.invalid, memwb := MemWbLatch.invalid }

/-- The five steps of a cycle (R16, R101). An instruction's meaning says what it does in each. -/
inductive Stage where
  | fetch
  | decode
  | execute
  | memory
  | writeback
  deriving DecidableEq, Repr

/-- One trace entry (R127): the cycle number counting from 1, the four latches after the cycle's commit,
each as its record when valid and `none` for "empty", and the signals computed during the cycle. -/
structure TraceEntry where
  cycle : Nat
  ifid : Option Record
  idex : Option Record
  exmem : Option Record
  memwb : Option Record
  stall : Bool
  taken : Bool
  target : Int
  deriving DecidableEq, Repr

/-- The whole state (spec/10_state.md section 0). `nxt` is the second half of the double-buffered
latches (R38); `stage` and the emptiness of `nxt` between cycles are the model's own (log entry 3);
`traceOut` is the trace output port, the entry of the last cycle (R127, R129; log entry 4). -/
structure State where
  /-- The register file `x[0]` to `x[31]` (R20). -/
  regs : Vector Word 32
  /-- The index of the next instruction to fetch, an integer that never wraps (R25). -/
  pc : Int
  /-- The data memory `M` (R52). -/
  mem : Memory
  /-- The program store: record `k` is `prog[k]` with `idx = k` (R66, R74). -/
  prog : List Instr
  /-- The current latches, which the steps of a cycle read (R100). -/
  cur : Latches
  /-- The next latches, which the steps of a cycle fill (R38). -/
  nxt : Latches
  /-- The step of the cycle that an instruction's meaning is asked for (R101). -/
  stage : Stage
  /-- Cycles executed since reset (R40). -/
  cycles : Nat
  /-- Instructions that completed Writeback (R41). -/
  retired : Nat
  /-- The trace output: the last cycle's entry, `none` before the first cycle (R127). -/
  traceOut : Option TraceEntry
  deriving DecidableEq, Repr

/-- The machine right after reset (R230), with nothing loaded: the program store is empty, MEM_INIT lists
nothing, and REG_INIT is `Config.resetRegInit`. `launch` (Machine/Load.lean) is the same reset with a
program, a MEM_INIT and a REG_INIT that the host supplied before it (R231). -/
def State.reset : State :=
  { regs := (#v[0#32] ++ Config.resetRegInit : Vector Word (1 + 31))
    pc := 0
    mem := []
    prog := []
    cur := Latches.empty
    nxt := Latches.empty
    stage := .fetch
    cycles := 0
    retired := 0
    traceOut := none }

end Sys2Proof.Machine
end

