-- ==== Sys2Proof/Machine/Ops.lean ====
section
/-! DEFINITION. The operations over registers, data memory, program store and latches that the meanings
share. The hardware takes no exception and returns from none (R200, R204, R205), so there is no exception
entry among them. -/

namespace Sys2Proof.Machine

/-- Reading a register: it yields 0 for register 0, whatever the file holds there (R15, R21). -/
def readReg (x : Vector Word 32) (r : Reg) : Word :=
  if r = 0#5 then 0#32 else x[r.toNat]'r.isLt

/-- Writing a register: nothing happens for register 0 (R15, R21; decision D26). -/
def writeReg (x : Vector Word 32) (r : Reg) (v : Word) : Vector Word 32 :=
  if r = 0#5 then x else x.set r.toNat v r.isLt

/-- What the list of cells holds at a key, 0 where no cell is listed (R52). -/
def readCell : Memory → Nat → Word
  | [], _ => 0#32
  | (k, v) :: rest, a => if a = k then v else readCell rest a

/-- The list of cells with `v` at key `a`, in canonical form: an entry of 0 is never listed (R67, D15). -/
def writeCell : Memory → Nat → Word → Memory
  | [], a, v => if v = 0#32 then [] else [(a, v)]
  | (k, w) :: rest, a, v =>
    if a < k then if v = 0#32 then (k, w) :: rest else (a, v) :: (k, w) :: rest
    else if a = k then if v = 0#32 then rest else (a, v) :: rest
    else (k, w) :: writeCell rest a v

/-- `MemRead(addr, 1)`: the word at an address, 0 if none was ever stored there. It changes nothing
(R57, R58). -/
def memRead (m : Memory) (addr : Word) : Word := readCell m addr.toNat

/-- `MemWrite(addr, 1, v)`: the memory with `v` at that one cell (R53, R58). -/
def memWrite (m : Memory) (addr v : Word) : Memory := writeCell m addr.toNat v

/-- The record fields that Fetch finds at index `pc`: `Prog[pc]` when 0 ≤ pc < N, nothing otherwise
(R66, R120, R121). -/
def fetchAt (prog : List Instr) (pc : Int) : Option Instr :=
  if 0 ≤ pc then prog[pc.toNat]? else none

/-- A valid latch reported as its record, an invalid one as "empty" (R127). -/
def report (valid : Bool) (r : Record) : Option Record := if valid then some r else none

/-- "No more instructions to fetch" and all four latches invalid (R46, R124; decision D8). -/
def done (s : State) : Bool :=
  decide (s.pc < 0 ∨ (s.prog.length : Int) ≤ s.pc) &&
    !s.cur.ifid.valid && !s.cur.idex.valid && !s.cur.exmem.valid && !s.cur.memwb.valid

/-- The next steps of a cycle after one that may stop. -/
def andThen (o : Host.Outcome State Fault Refusal) (f : State → Host.Outcome State Fault Refusal) :
    Host.Outcome State Fault Refusal :=
  match o with
  | .next s => f s
  | .fault r => .fault r
  | .refused r => .refused r

end Sys2Proof.Machine
end

