-- ==== Sys2Proof/Machine/Load.lean ====
section
/-! DEFINITION. The load interface, used before reset is released (R129, R231): a program of records or of
words, MEM_INIT and REG_INIT. A program outside the contract is refused as a whole (R83, R232; D24). -/

namespace Sys2Proof.Machine

/-- `MEM_INIT` as a memory: every address it lists set in turn, every other one 0 (R54, D14). -/
def initialMemory (memInit : List (Word × Word)) : Memory :=
  memInit.foldl (fun m cell => memWrite m cell.1 cell.2) []

/-- The register file at launch: `x[0] = 0` and `x[1]` to `x[31]` from REG_INIT (R24). -/
def initialRegs (regInit : Vector Word 31) : Vector Word 32 :=
  (#v[0#32] ++ regInit : Vector Word (1 + 31))

/-- The reset state with a program, MEM_INIT and REG_INIT supplied (R230, R231). -/
def launch (prog : List Instr) (memInit : List (Word × Word)) (regInit : Vector Word 31) : State :=
  { State.reset with regs := initialRegs regInit, mem := initialMemory memInit, prog := prog }

/-- The operation that a name spells, if it is one of the six (R71, R86). -/
def opOfName (name : String) : Option Op :=
  [Op.nop, Op.add, Op.sub, Op.lw, Op.sw, Op.beq].find? fun o => o.mnemonic == name

/-- The record fields of an operation (R70). -/
def instrOf (op : Op) (rd ra rb : Reg) (imm : Imm) : Instr :=
  match op with
  | .nop => .nop rd ra rb imm
  | .add => .add rd ra rb imm
  | .sub => .sub rd ra rb imm
  | .lw => .lw rd ra rb imm
  | .sw => .sw rd ra rb imm
  | .beq => .beq rd ra rb imm

/-- The record fields of a raw record, if its operation is known; they are its own where they are in range
(R70, R232). -/
def rawInstr (r : RawRecord) : Option Instr :=
  (opOfName r.op).map fun op =>
    instrOf op (BitVec.ofInt 5 r.rd) (BitVec.ofInt 5 r.ra) (BitVec.ofInt 5 r.rb) (BitVec.ofInt 16 r.imm)

/-- One raw record at a program position: accepted, or refused by name (R75, R83, R232). -/
def loadRecord (position : Nat) (r : RawRecord) : Except Refusal Instr :=
  match rawInstr r with
  | none => .error (.unknownOperation position)
  | some i =>
    if r.registersInRange then
      if r.immediateInRange then .ok i else .error (.immediateOutOfRange position)
    else .error (.registerOutOfRange position)

/-- The records from `position` on, in program order; the first one refused refuses them all (R83). -/
def loadRecords (position : Nat) : List RawRecord → Except Refusal (List Instr)
  | [] => .ok []
  | r :: rest =>
    match loadRecord position r with
    | .error e => .error e
    | .ok i =>
      match loadRecords (position + 1) rest with
      | .error e => .error e
      | .ok is => .ok (i :: is)

/-- The words from `position` on, decoded in program order; the first one refused refuses them all (R79,
R83). -/
def loadWords (position : Nat) : List Word → Except Refusal (List Instr)
  | [] => .ok []
  | w :: rest =>
    match decode w with
    | .error _ => .error (.unlistedWord position)
    | .ok i =>
      match loadWords (position + 1) rest with
      | .error e => .error e
      | .ok is => .ok (i :: is)

/-- Load and reset with a program of raw records (R231, R232): the launch state, or no run at all. -/
def launchRecords (raw : List RawRecord) (memInit : List (Word × Word)) (regInit : Vector Word 31) :
    Host.Outcome State Fault Refusal :=
  match loadRecords 0 raw with
  | .ok prog => .next (launch prog memInit regInit)
  | .error e => .refused e

/-- Load and reset with a program of 32-bit words (R79, R83, R231): the launch state, or no run at all. -/
def launchWords (words : List Word) (memInit : List (Word × Word)) (regInit : Vector Word 31) :
    Host.Outcome State Fault Refusal :=
  match loadWords 0 words with
  | .ok prog => .next (launch prog memInit regInit)
  | .error e => .refused e

/-- The program store with `i` at index `k`, nops before it where the store is shorter. -/
def storeAt (prog : List Instr) (k : Nat) (i : Instr) : List Instr :=
  match prog, k with
  | [], 0 => [i]
  | [], k + 1 => .nop 0#5 0#5 0#5 0#16 :: storeAt [] k i
  | _ :: rest, 0 => i :: rest
  | j :: rest, k + 1 => j :: storeAt rest k i

/-- The state in which the next cycle fetches `i`: `i` stands in the program store at `pc` (at 0, where
`pc` is negative), and ID/EX is empty, so that neither `taken` nor `stall` keeps Fetch from it (R119). -/
def placeForFetch (i : Instr) (s : State) : State :=
  { s with
    pc := if 0 ≤ s.pc then s.pc else 0
    prog := storeAt s.prog s.pc.toNat i
    cur := { s.cur with idex := IdExLatch.invalid } }

end Sys2Proof.Machine
end

