-- ==== Sys2Proof/Machine/Operands.lean ====
section
/-! DEFINITION. Operand use (R72), the forwarding network (R108 to R112), the effective address (R170) and
the branch target (R191). -/

namespace Sys2Proof.Machine

/-- The register-writing operations: add, sub and lw (R72). -/
def writesReg : Op → Bool
  | .nop => false
  | .add => true
  | .sub => true
  | .lw => true
  | .sw => false
  | .beq => false

/-- The operations that use source-A (R72). -/
def usesA : Op → Bool
  | .nop => false
  | .add => true
  | .sub => true
  | .lw => true
  | .sw => true
  | .beq => true

/-- The operations that use source-B (R72). -/
def usesB : Op → Bool
  | .nop => false
  | .add => true
  | .sub => true
  | .lw => false
  | .sw => true
  | .beq => true

/-- The operations that use the immediate: lw, sw and beq (R72, R82). -/
def usesImm : Op → Bool
  | .nop => false
  | .add => false
  | .sub => false
  | .lw => true
  | .sw => true
  | .beq => true

/-- The arithmetic operations (R72). -/
def isArith : Op → Bool
  | .nop => false
  | .add => true
  | .sub => true
  | .lw => false
  | .sw => false
  | .beq => false

/-- The value that MEM/WB writes back and forwards: the load data of a lw, the ALU result otherwise
(R102, R111). -/
def writebackValue (l : MemWbLatch) : Word :=
  match l.ins.ins.op with
  | .lw => l.ldata
  | .nop => l.alu
  | .add => l.alu
  | .sub => l.alu
  | .sw => l.alu
  | .beq => l.alu

/-- EX/MEM is an eligible source for register `r`: it holds an add or sub that writes `r`, and `r` is not
register 0 (R108, R110, R112). -/
def forwardsFromExMem (l : ExMemLatch) (r : Reg) : Bool :=
  l.valid && isArith l.ins.ins.op && l.ins.ins.rd != 0#5 && l.ins.ins.rd == r

/-- MEM/WB is an eligible source for register `r`: it holds a register-writing instruction that writes
`r`, and `r` is not register 0 (R108, R111, R112). -/
def forwardsFromMemWb (l : MemWbLatch) (r : Reg) : Bool :=
  l.valid && writesReg l.ins.ins.op && l.ins.ins.rd != 0#5 && l.ins.ins.rd == r

/-- The forwarding function `fwd` (R108): EX/MEM first, then MEM/WB, then the value latched at Decode
(R109). It reads the current latches. -/
def forward (l : Latches) (r : Reg) (latched : Word) : Word :=
  if forwardsFromExMem l.exmem r then l.exmem.alu
  else if forwardsFromMemWb l.memwb r then writebackValue l.memwb
  else latched

/-- The source-A operand of the instruction in Execute, whose `ra` field is given (R107). -/
def operandA (ra : Reg) (s : State) : Word := forward s.cur ra s.cur.idex.a

/-- The source-B operand of the instruction in Execute, whose `rb` field is given (R107). -/
def operandB (rb : Reg) (s : State) : Word := forward s.cur rb s.cur.idex.b

/-- `sext_32(imm[15:0])` (R14, R82). -/
def sext32 (imm : Imm) : Word := imm.signExtend 32

/-- Base plus displacement, modulo 2^32: the one addressing mode (R170). -/
def effectiveAddress (base : Word) (imm : Imm) : Word := base + sext32 imm

/-- `idx + 1 + imm`, an integer sum that is not reduced modulo anything (R191; decision D6). -/
def branchTarget (idx : Int) (imm : Imm) : Int := idx + 1 + imm.toInt

end Sys2Proof.Machine
end

