-- ==== Sys2Proof/Machine/Flags.lean ====
section
/-! DEFINITION. The hardware has no flags and no condition codes (R29), so no operation computes one. This
file holds the one-bit conditions it does have: the equality that beq tests, and the combinational signals
`stall`, `taken` and `target` of a cycle (R44). -/

namespace Sys2Proof.Machine

/-- `==` on Words compares all 32 bits (R14, R190). -/
def wordsEqual (a b : Word) : Bool := a == b

/-- The load-use hazard signal `stall` (R115). -/
def loadUse (ifid : IfIdLatch) (idex : IdExLatch) : Bool :=
  ifid.valid && idex.valid && idex.ins.ins.op == .lw && idex.ins.ins.rd != 0#5 &&
    ((usesA ifid.ins.ins.op && ifid.ins.ins.ra == idex.ins.ins.rd) ||
      (usesB ifid.ins.ins.op && ifid.ins.ins.rb == idex.ins.ins.rd))

/-- The signal `stall` of the cycle: a function of the current latches alone (R44, R115). -/
def stallSignal (s : State) : Bool := loadUse s.cur.ifid s.cur.idex

/-- The signal `taken` of the cycle, `EXMEM'.valid and EXMEM'.taken`, once Execute has filled the next
EX/MEM latch (R107, R114). -/
def takenSignal (s : State) : Bool := s.nxt.exmem.valid && s.nxt.exmem.taken

/-- The signal `target` of the cycle, `EXMEM'.target` (R114); it is meaningful only when `taken` is. -/
def targetSignal (s : State) : Int := s.nxt.exmem.target

end Sys2Proof.Machine
end

