-- ==== Sys2Proof/Machine/Stages.lean ====
section
/-! DEFINITION. What an instruction does in each of the five steps, as operations that every instruction's
meaning is built from, and the commit that ends a cycle (spec/40_pipeline.md sections 3 to 8). -/

namespace Sys2Proof.Machine

/-- `exec(i, a, b)`'s four results (R113). -/
structure ExecResult where
  alu : Word
  sdata : Word
  taken : Bool
  target : Int
  deriving DecidableEq, Repr

/-- A result with no store data and no branch (R113). -/
def ExecResult.value (alu : Word) : ExecResult := { alu := alu, sdata := 0#32, taken := false, target := 0 }

/-- An effective address with the store-data value captured from source-B (R113). -/
def ExecResult.access (address sdata : Word) : ExecResult :=
  { alu := address, sdata := sdata, taken := false, target := 0 }

/-- A branch to `target` when `cond` holds; the target field is 0 when it does not (R113). -/
def ExecResult.branch (cond : Bool) (target : Int) : ExecResult :=
  { alu := 0#32, sdata := 0#32, taken := cond, target := if cond then target else 0 }

/-- Fetch, when the instruction at `pc` is `i` and neither `taken` nor `stall` holds: IF/ID takes the
record, whose position is `pc`, and `pc` is incremented (R119, R120, R66). -/
def fetchStage (i : Instr) (s : State) : State :=
  { s with
    pc := s.pc + 1
    nxt := { s.nxt with ifid := { valid := true, ins := { ins := i, idx := s.pc } } } }

/-- Decode: ID/EX takes the instruction of IF/ID with the values that the register file holds after this
cycle's Writeback, both fields read whatever the operation (R117). -/
def decodeStage (i : Instr) (s : State) : State :=
  { s with
    nxt := { s.nxt with
      idex := { valid := true, ins := { ins := i, idx := s.cur.ifid.ins.idx },
                a := readReg s.regs i.ra, b := readReg s.regs i.rb } } }

/-- Execute: EX/MEM takes the instruction of ID/EX with the results of `exec(i, a, b)` (R107). -/
def executeStage (i : Instr) (r : ExecResult) (s : State) : State :=
  { s with
    nxt := { s.nxt with
      exmem := { valid := true, ins := { ins := i, idx := s.cur.idex.ins.idx },
                 alu := r.alu, sdata := r.sdata, taken := r.taken, target := r.target } } }

/-- Memory: MEM/WB takes the instruction of EX/MEM, its ALU result unchanged, and `ldata` (R104). -/
def memoryStage (i : Instr) (ldata : Word) (s : State) : State :=
  { s with
    nxt := { s.nxt with
      memwb := { valid := true, ins := { ins := i, idx := s.cur.exmem.ins.idx },
                 alu := s.cur.exmem.alu, ldata := ldata } } }

/-- The Memory step's load: the word at the ALU-computed address, 0 if unwritten (R105). -/
def loadData (s : State) : Word := memRead s.mem s.cur.exmem.alu

/-- The Memory step's store: the store-data value goes to the ALU-computed address at once (R106). -/
def storeData (s : State) : State := { s with mem := memWrite s.mem s.cur.exmem.alu s.cur.exmem.sdata }

/-- Retirement: `retired` increases by 1, whatever the operation (R103). -/
def retire (s : State) : State := { s with retired := s.retired + 1 }

/-- Writeback of a register-writing instruction: its value goes to `rd`, suppressed for register 0
(R102). -/
def writeBack (rd : Reg) (v : Word) (s : State) : State := { s with regs := writeReg s.regs rd v }

/-- The trace entry of the cycle, before the commit: the next latches are those after the commit (R127,
decision D20). -/
def traceEntry (s : State) : TraceEntry :=
  { cycle := s.cycles + 1
    ifid := report s.nxt.ifid.valid s.nxt.ifid.ins
    idex := report s.nxt.idex.valid s.nxt.idex.ins
    exmem := report s.nxt.exmem.valid s.nxt.exmem.ins
    memwb := report s.nxt.memwb.valid s.nxt.memwb.ins
    stall := stallSignal s
    taken := takenSignal s
    target := targetSignal s }

/-- The commit: all four latches take their next values at once, the cycle is counted, and its trace entry
is emitted (R122, R127). `nxt` is left empty for the next cycle, in which every field of it is written
before it is read (log entry 3). -/
def commit (s : State) : State :=
  { s with
    cur := s.nxt
    nxt := Latches.empty
    stage := .fetch
    cycles := s.cycles + 1
    traceOut := some (traceEntry s) }

end Sys2Proof.Machine
end

