-- ==== Sys2Proof/Machine/Arithmetic.lean ====
section
/-! DEFINITION. nop, add and sub (spec/41_alu.md): what each does in every stage of the pipeline, after the
template of R150 to R152. Overflow wraps and sets nothing (R153). -/

namespace Sys2Proof.Machine

/-- `nop` (R150): it computes nothing, writes nothing, and retires. -/
def execNop (rd ra rb : Reg) (imm : Imm) (s : State) : Host.Outcome State Fault Refusal :=
  match s.stage with
  | .fetch => .next (fetchStage (.nop rd ra rb imm) s)
  | .decode => .next (decodeStage (.nop rd ra rb imm) s)
  | .execute => .next (executeStage (.nop rd ra rb imm) (.value 0#32) s)
  | .memory => .next (memoryStage (.nop rd ra rb imm) 0#32 s)
  | .writeback => .next (retire s)

/-- `add rD, rA, rB` (R151): `x[rD] <- x[rA] +w x[rB]`. -/
def execAdd (rd ra rb : Reg) (imm : Imm) (s : State) : Host.Outcome State Fault Refusal :=
  match s.stage with
  | .fetch => .next (fetchStage (.add rd ra rb imm) s)
  | .decode => .next (decodeStage (.add rd ra rb imm) s)
  | .execute => .next (executeStage (.add rd ra rb imm) (.value (operandA ra s + operandB rb s)) s)
  | .memory => .next (memoryStage (.add rd ra rb imm) 0#32 s)
  | .writeback => .next (retire (writeBack rd s.cur.memwb.alu s))

/-- `sub rD, rA, rB` (R152): `x[rD] <- x[rA] -w x[rB]`. -/
def execSub (rd ra rb : Reg) (imm : Imm) (s : State) : Host.Outcome State Fault Refusal :=
  match s.stage with
  | .fetch => .next (fetchStage (.sub rd ra rb imm) s)
  | .decode => .next (decodeStage (.sub rd ra rb imm) s)
  | .execute => .next (executeStage (.sub rd ra rb imm) (.value (operandA ra s - operandB rb s)) s)
  | .memory => .next (memoryStage (.sub rd ra rb imm) 0#32 s)
  | .writeback => .next (retire (writeBack rd s.cur.memwb.alu s))

end Sys2Proof.Machine
end

