-- ==== Sys2Proof/Machine/Branch.lean ====
section
/-! DEFINITION. beq (spec/43_branch.md R190 to R194). Execute resolves it; the squash and the redirect that
a taken branch causes in the same cycle stand in the Decode and Fetch steps (Phases.lean; R118, R119). -/

namespace Sys2Proof.Machine

/-- `beq rA, rB, imm` (R190): taken when the two operands are equal, to `idx + 1 + imm`, where `idx` is the
branch's own position (R191). -/
def execBeq (rd ra rb : Reg) (imm : Imm) (s : State) : Host.Outcome State Fault Refusal :=
  match s.stage with
  | .fetch => .next (fetchStage (.beq rd ra rb imm) s)
  | .decode => .next (decodeStage (.beq rd ra rb imm) s)
  | .execute =>
    .next (executeStage (.beq rd ra rb imm)
      (.branch (wordsEqual (operandA ra s) (operandB rb s)) (branchTarget s.cur.idex.ins.idx imm)) s)
  | .memory => .next (memoryStage (.beq rd ra rb imm) 0#32 s)
  | .writeback => .next (retire s)

end Sys2Proof.Machine
end

