-- ==== Sys2Proof/Machine/LoadStore.lean ====
section
/-! DEFINITION. lw and sw (spec/42_load_store.md): what each does in every stage of the pipeline, after the
template of R171 and R172. -/

namespace Sys2Proof.Machine

/-- `lw rD, imm(rA)` (R171): `x[rD] <- MemRead(x[rA] +w sext_32(imm), 1)`. Execute resolves `rb` too and
keeps it as the store-data value, which nothing uses (R113, D19). -/
def execLw (rd ra rb : Reg) (imm : Imm) (s : State) : Host.Outcome State Fault Refusal :=
  match s.stage with
  | .fetch => .next (fetchStage (.lw rd ra rb imm) s)
  | .decode => .next (decodeStage (.lw rd ra rb imm) s)
  | .execute =>
    .next (executeStage (.lw rd ra rb imm)
      (.access (effectiveAddress (operandA ra s) imm) (operandB rb s)) s)
  | .memory => .next (memoryStage (.lw rd ra rb imm) (loadData s) s)
  | .writeback => .next (retire (writeBack rd s.cur.memwb.ldata s))

/-- `sw rB, imm(rA)` (R172): `MemWrite(x[rA] +w sext_32(imm), 1, x[rB])`. -/
def execSw (rd ra rb : Reg) (imm : Imm) (s : State) : Host.Outcome State Fault Refusal :=
  match s.stage with
  | .fetch => .next (fetchStage (.sw rd ra rb imm) s)
  | .decode => .next (decodeStage (.sw rd ra rb imm) s)
  | .execute =>
    .next (executeStage (.sw rd ra rb imm)
      (.access (effectiveAddress (operandA ra s) imm) (operandB rb s)) s)
  | .memory => .next (memoryStage (.sw rd ra rb imm) 0#32 (storeData s))
  | .writeback => .next (retire s)

end Sys2Proof.Machine
end

