-- ==== Sys2Proof/Machine/Dispatch.lean ====
section
/-! DEFINITION. The dispatch of an instruction to its meaning: what it does in the step of the cycle that
`s.stage` names. -/

namespace Sys2Proof.Machine

def exec (i : Instr) (s : State) : Host.Outcome State Fault Refusal :=
  match i with
  -- spec/41_alu.md
  | .nop rd ra rb imm => Sys2Proof.Machine.execNop rd ra rb imm s
  | .add rd ra rb imm => Sys2Proof.Machine.execAdd rd ra rb imm s
  | .sub rd ra rb imm => Sys2Proof.Machine.execSub rd ra rb imm s
  -- spec/42_load_store.md
  | .lw rd ra rb imm => Sys2Proof.Machine.execLw rd ra rb imm s
  | .sw rd ra rb imm => Sys2Proof.Machine.execSw rd ra rb imm s
  -- spec/43_branch.md
  | .beq rd ra rb imm => Sys2Proof.Machine.execBeq rd ra rb imm s

end Sys2Proof.Machine
end

