-- ==== Sys2Proof/Machine/Phases.lean ====
section
/-! DEFINITION. The five steps of a cycle, in the order of R101. Each asks for the meaning of the
instruction that occupies its latch, and says what happens when there is none: a bubble, a stall, a squash
or an idle fetch (spec/40_pipeline.md sections 3 to 8). -/

namespace Sys2Proof.Machine

/-- The meaning of `i` in one step of the cycle. -/
def execIn (stage : Stage) (i : Instr) (s : State) : Host.Outcome State Fault Refusal :=
  exec i { s with stage := stage }

/-- Step 1, Writeback: the instruction in MEM/WB, if any. It fills no latch (R102, R103). -/
def writebackPhase (s : State) : Host.Outcome State Fault Refusal :=
  if s.cur.memwb.valid then execIn .writeback s.cur.memwb.ins.ins s else .next s

/-- Step 2, Memory: the instruction in EX/MEM, if any; otherwise MEM/WB becomes INVALID (R104). -/
def memoryPhase (s : State) : Host.Outcome State Fault Refusal :=
  if s.cur.exmem.valid then execIn .memory s.cur.exmem.ins.ins s
  else .next { s with nxt := { s.nxt with memwb := MemWbLatch.invalid } }

/-- Step 3, Execute: the instruction in ID/EX, if any; otherwise EX/MEM becomes INVALID (R107). -/
def executePhase (s : State) : Host.Outcome State Fault Refusal :=
  if s.cur.idex.valid then execIn .execute s.cur.idex.ins.ins s
  else .next { s with nxt := { s.nxt with exmem := ExMemLatch.invalid } }

/-- Step 4, Decode: the instruction in IF/ID, if there is one and neither `stall` nor `taken` holds;
otherwise ID/EX becomes INVALID (R117, R118). -/
def decodePhase (s : State) : Host.Outcome State Fault Refusal :=
  if s.cur.ifid.valid && !stallSignal s && !takenSignal s then execIn .decode s.cur.ifid.ins.ins s
  else .next { s with nxt := { s.nxt with idex := IdExLatch.invalid } }

/-- Step 5, Fetch (R119): redirect on a taken branch, hold on a stall, fetch `Prog[pc]`, or find nothing
(R121). -/
def fetchPhase (s : State) : Host.Outcome State Fault Refusal :=
  if takenSignal s then
    .next { s with pc := targetSignal s, nxt := { s.nxt with ifid := IfIdLatch.invalid } }
  else if stallSignal s then
    .next { s with nxt := { s.nxt with ifid := s.cur.ifid } }
  else
    match fetchAt s.prog s.pc with
    | some i => execIn .fetch i s
    | none => .next { s with nxt := { s.nxt with ifid := IfIdLatch.invalid } }

/-- The four steps that work on the instructions already in the pipeline (R101). -/
def olderSteps (s : State) : Host.Outcome State Fault Refusal :=
  andThen (andThen (andThen (writebackPhase s) memoryPhase) executePhase) decodePhase

/-- One cycle: the five steps and the commit (R100, R101, R122). -/
def cycle (s : State) : Host.Outcome State Fault Refusal :=
  andThen (andThen (olderSteps s) fetchPhase) fun t => .next (commit t)

end Sys2Proof.Machine
end

