-- ==== Sys2Proof/Machine/Step.lean ====
section
/-! DEFINITION. The step of the machine: one clock cycle (R16, R129), and none once the run is over. -/

namespace Sys2Proof.Machine

/-- One cycle (R123), or, once `done` holds, the same state: "no further cycle executes" and all state
stays as the last commit left it (R124, R212; decision D23). -/
def step (s : State) : Host.Outcome State Fault Refusal :=
  if done s then .next s else cycle s

/-- `s` with the instruction of the `nbits` low bits of `w` placed where the next cycle fetches. A word
that the decoder refuses is not loaded, since a program that holds one is refused as a whole (R83). -/
def State.withFetchWord (s : State) (nbits w : Nat) : State :=
  match decodeTableWord nbits w with
  | some i => placeForFetch i s
  | none => s

end Sys2Proof.Machine
end

