-- ==== Sys2Proof/Machine/CycleRule.lean ====
section
/-! DEFINITION. Rule R123 as one function, line by line: the reference that the cycle built from the
instructions' meanings (Phases.lean) has to agree with. `step` does not use it. -/

namespace Sys2Proof.Machine

/-- The execute function `exec(i, a, b)` (R113), for an instruction at position `idx`. -/
def execFunction (i : Instr) (idx : Int) (a b : Word) : ExecResult :=
  match i.op with
  | .nop => { alu := 0#32, sdata := 0#32, taken := false, target := 0 }
  | .add => { alu := a + b, sdata := 0#32, taken := false, target := 0 }
  | .sub => { alu := a - b, sdata := 0#32, taken := false, target := 0 }
  | .lw => { alu := a + i.imm.signExtend 32, sdata := b, taken := false, target := 0 }
  | .sw => { alu := a + i.imm.signExtend 32, sdata := b, taken := false, target := 0 }
  | .beq =>
    if a = b then { alu := 0#32, sdata := 0#32, taken := true, target := idx + 1 + i.imm.toInt }
    else { alu := 0#32, sdata := 0#32, taken := false, target := 0 }

/-- `x1` of R123: the registers after this cycle's Writeback. -/
def ruleRegs (s : State) : Vector Word 32 :=
  let l := s.cur.memwb
  if l.valid && writesReg l.ins.ins.op && l.ins.ins.rd != 0#5 then
    writeReg s.regs l.ins.ins.rd (if l.ins.ins.op = .lw then l.ldata else l.alu)
  else s.regs

/-- `ret1` of R123. -/
def ruleRetired (s : State) : Nat := if s.cur.memwb.valid then s.retired + 1 else s.retired

/-- `M1` of R123: the memory after this cycle's Memory step. -/
def ruleMem (s : State) : Memory :=
  let l := s.cur.exmem
  if l.valid && l.ins.ins.op == .sw then memWrite s.mem l.alu l.sdata else s.mem

/-- `MEMWB'` of R123. -/
def ruleMemWb (s : State) : MemWbLatch :=
  let l := s.cur.exmem
  if l.valid then
    { valid := true, ins := l.ins, alu := l.alu,
      ldata := if l.ins.ins.op = .lw then memRead s.mem l.alu else 0#32 }
  else MemWbLatch.invalid

/-- `EXMEM'` of R123. -/
def ruleExMem (s : State) : ExMemLatch :=
  let l := s.cur.idex
  if l.valid then
    let r := execFunction l.ins.ins l.ins.idx
      (forward s.cur l.ins.ins.ra l.a) (forward s.cur l.ins.ins.rb l.b)
    { valid := true, ins := l.ins, alu := r.alu, sdata := r.sdata, taken := r.taken, target := r.target }
  else ExMemLatch.invalid

/-- `taken` of R123. -/
def ruleTaken (s : State) : Bool := (ruleExMem s).valid && (ruleExMem s).taken

/-- `target` of R123. -/
def ruleTarget (s : State) : Int := (ruleExMem s).target

/-- `IDEX'` of R123. -/
def ruleIdEx (s : State) : IdExLatch :=
  let l := s.cur.ifid
  if l.valid && !stallSignal s && !ruleTaken s then
    { valid := true, ins := l.ins, a := readReg (ruleRegs s) l.ins.ins.ra,
      b := readReg (ruleRegs s) l.ins.ins.rb }
  else IdExLatch.invalid

/-- `pc'` of R123. -/
def rulePc (s : State) : Int :=
  if ruleTaken s then ruleTarget s
  else if stallSignal s then s.pc
  else if 0 ≤ s.pc ∧ s.pc < s.prog.length then s.pc + 1
  else s.pc

/-- `IFID'` of R123; `Prog[pc]` has `idx = pc` (R66). -/
def ruleIfId (s : State) : IfIdLatch :=
  if ruleTaken s then IfIdLatch.invalid
  else if stallSignal s then s.cur.ifid
  else
    match fetchAt s.prog s.pc with
    | some i => { valid := true, ins := { ins := i, idx := s.pc } }
    | none => IfIdLatch.invalid

/-- The next latches of R123. -/
def ruleLatches (s : State) : Latches :=
  { ifid := ruleIfId s, idex := ruleIdEx s, exmem := ruleExMem s, memwb := ruleMemWb s }

/-- The trace entry of R123 and R127. -/
def ruleTrace (s : State) : TraceEntry :=
  { cycle := s.cycles + 1
    ifid := report (ruleIfId s).valid (ruleIfId s).ins
    idex := report (ruleIdEx s).valid (ruleIdEx s).ins
    exmem := report (ruleExMem s).valid (ruleExMem s).ins
    memwb := report (ruleMemWb s).valid (ruleMemWb s).ins
    stall := stallSignal s
    taken := ruleTaken s
    target := ruleTarget s }

/-- `Step(S)` of R123: the next state, with the entry it emits on the trace output. -/
def ruleStep (s : State) : State :=
  { regs := ruleRegs s
    pc := rulePc s
    mem := ruleMem s
    prog := s.prog
    cur := ruleLatches s
    nxt := Latches.empty
    stage := .fetch
    cycles := s.cycles + 1
    retired := ruleRetired s
    traceOut := some (ruleTrace s) }

end Sys2Proof.Machine
end

