-- ==== Sys2Proof/Machine/Run.lean ====
section
/-! DEFINITION. The run loop and what a run reports (R124 to R127, R129, R233). -/

namespace Sys2Proof.Machine

/-- What the core reports at the end of a run (R125). The registers are signed (R153). The memory is `M`,
as its canonical list of cells (R67). -/
structure Results where
  cycles : Nat
  retired : Nat
  cpi : Rat
  regs : Vector Int 32
  mem : Memory
  deriving DecidableEq, Repr

/-- `cycles / retired` as an exact rational, and 0 when nothing retired (R125; decision D21). -/
def cpi (cycles retired : Nat) : Rat :=
  if retired = 0 then 0 else (cycles : Rat) / (retired : Rat)

/-- The results of a state (R125); they are valid once `done` holds (R129). -/
def results (s : State) : Results :=
  { cycles := s.cycles
    retired := s.retired
    cpi := cpi s.cycles s.retired
    regs := s.regs.map fun v => v.toInt
    mem := s.mem }

/-- `n` clock cycles, or fewer where the run is over before (R124, R129). -/
def steps : Nat → State → Host.Outcome State Fault Refusal
  | 0, s => .next s
  | n + 1, s => andThen (step s) (steps n)

/-- `run()` (R124) under fuel, since a run need not end (R126; decision D29): the results and the trace,
one entry for each cycle, or nothing when the fuel is spent before `done` holds. -/
def run : Nat → State → Option (Results × List TraceEntry)
  | 0, s => if done s then some (results s, []) else none
  | fuel + 1, s =>
    if done s then some (results s, [])
    else
      match step s with
      | .next t => (run fuel t).map fun p => (p.1, t.traceOut.toList ++ p.2)
      | .fault _ => none
      | .refused _ => none

end Sys2Proof.Machine
end

