-- ==== Sys2Proof/Machine/Sequential.lean ====
section
/-! DEFINITION. The architectural results alone (R240): the instructions executed one after another in
program order, each by the first line of its rule (R150 to R152, R171, R172, R190), without a pipeline. It
is what the pipeline's results are compared with (R130, R239); `step` does not use it. -/

namespace Sys2Proof.Machine

/-- The architectural state (R30), and the position of the next instruction in program order. -/
structure Arch where
  regs : Vector Word 32
  mem : Memory
  pc : Int
  deriving DecidableEq, Repr

/-- The effect of one instruction at position `a.pc` on the architectural state. -/
def archExec (i : Instr) (a : Arch) : Arch :=
  match i with
  | .nop _ _ _ _ => { a with pc := a.pc + 1 }
  | .add rd ra rb _ =>
    { a with regs := writeReg a.regs rd (readReg a.regs ra + readReg a.regs rb), pc := a.pc + 1 }
  | .sub rd ra rb _ =>
    { a with regs := writeReg a.regs rd (readReg a.regs ra - readReg a.regs rb), pc := a.pc + 1 }
  | .lw rd ra _ imm =>
    { a with
      regs := writeReg a.regs rd (memRead a.mem (effectiveAddress (readReg a.regs ra) imm))
      pc := a.pc + 1 }
  | .sw _ ra rb imm =>
    { a with
      mem := memWrite a.mem (effectiveAddress (readReg a.regs ra) imm) (readReg a.regs rb)
      pc := a.pc + 1 }
  | .beq _ ra rb imm =>
    { a with
      pc := if readReg a.regs ra = readReg a.regs rb then branchTarget a.pc imm else a.pc + 1 }

/-- The next instruction in program order, if `a.pc` is inside the program; otherwise nothing is left to
execute (R124, R194). -/
def archStep (prog : List Instr) (a : Arch) : Arch :=
  match fetchAt prog a.pc with
  | some i => archExec i a
  | none => a

/-- `n` instructions in program order. -/
def archRun (prog : List Instr) : Nat → Arch → Arch
  | 0, a => a
  | n + 1, a => archRun prog n (archStep prog a)

/-- The position of the oldest instruction that has not yet been executed. -/
def nextIndex (s : State) : Int :=
  if s.cur.idex.valid then s.cur.idex.ins.idx
  else if s.cur.ifid.valid then s.cur.ifid.ins.idx
  else s.pc

/-- The registers once the instruction in MEM/WB has written back. -/
def afterMemWb (l : MemWbLatch) (x : Vector Word 32) : Vector Word 32 :=
  if l.valid && writesReg l.ins.ins.op then writeReg x l.ins.ins.rd (writebackValue l) else x

/-- The architectural state once the instruction in EX/MEM has done its Memory and Writeback steps. -/
def afterExMem (l : ExMemLatch) (a : Arch) : Arch :=
  if l.valid then
    match l.ins.ins.op with
    | .nop => a
    | .add => { a with regs := writeReg a.regs l.ins.ins.rd l.alu }
    | .sub => { a with regs := writeReg a.regs l.ins.ins.rd l.alu }
    | .lw => { a with regs := writeReg a.regs l.ins.ins.rd (memRead a.mem l.alu) }
    | .sw => { a with mem := memWrite a.mem l.alu l.sdata }
    | .beq => a
  else a

/-- The architectural state that the executed instructions still in flight, those of MEM/WB and EX/MEM,
are about to leave. -/
def archView (s : State) : Arch :=
  afterExMem s.cur.exmem
    { regs := afterMemWb s.cur.memwb s.regs, mem := s.mem, pc := nextIndex s }

/-- How many executed instructions are still in flight. -/
def executedInFlight (s : State) : Nat :=
  s.cur.exmem.valid.toNat + s.cur.memwb.valid.toNat

end Sys2Proof.Machine
end

