-- ==== Sys2Proof/Safety.lean ====
section
/-! DEFINITION. What a safe run of this machine is, in the terms the statements use: it never stops, and
the invariants of the spec hold (R21, R36, R37, R66, R130, R131). -/

namespace Sys2Proof.Safety

open Sys2Proof.Machine

/-- "The engine itself never fails mid-run" (R200): every number of cycles ends in a next state. -/
def NeverStops (s : State) : Prop := ∀ n, ∃ t, steps n s = .next t

/-- Register 0 holds 0 (R21, R131 a). -/
def ZeroRegister (s : State) : Prop := s.regs[0] = 0#32

/-- The memory is in its canonical form. -/
def CanonicalMemory (s : State) : Prop := s.mem.wf = true

/-- Every invalid latch of the set holds the bubble of R36. -/
def Bubbled (l : Latches) : Prop :=
  (l.ifid.valid = false → l.ifid = IfIdLatch.invalid) ∧
  (l.idex.valid = false → l.idex = IdExLatch.invalid) ∧
  (l.exmem.valid = false → l.exmem = ExMemLatch.invalid) ∧
  (l.memwb.valid = false → l.memwb = MemWbLatch.invalid)

/-- The state between two cycles: the next latches are empty, and the model's stage field is back at Fetch
(log entry 3). -/
def Settled (s : State) : Prop := s.nxt = Latches.empty ∧ s.stage = .fetch

/-- The fields of a valid latch that its operation leaves undefined are 0 (R34, R35, R113; D19). -/
def UndefinedFieldsZero (l : Latches) : Prop :=
  (l.exmem.valid = true → l.exmem.taken = true → l.exmem.ins.ins.op = .beq) ∧
  (l.exmem.taken = false → l.exmem.target = 0) ∧
  (l.exmem.valid = true → l.exmem.ins.ins.op ≠ .lw → l.exmem.ins.ins.op ≠ .sw → l.exmem.sdata = 0#32) ∧
  (l.exmem.valid = true → (l.exmem.ins.ins.op = .nop ∨ l.exmem.ins.ins.op = .beq) → l.exmem.alu = 0#32) ∧
  (l.memwb.valid = true → l.memwb.ins.ins.op ≠ .lw → l.memwb.ldata = 0#32) ∧
  (l.memwb.valid = true → (l.memwb.ins.ins.op = .nop ∨ l.memwb.ins.ins.op = .beq) → l.memwb.alu = 0#32)

/-- A record in a latch is the program's record at its position (R66, R74). -/
def FromProgram (s : State) (valid : Bool) (r : Record) : Prop :=
  valid = true → fetchAt s.prog r.idx = some r.ins

/-- The instructions not yet executed stand in program order, with no gap: ID/EX, then IF/ID, then the
next one to fetch (R37, R131 c). -/
def InProgramOrder (s : State) : Prop :=
  (s.cur.ifid.valid = true → s.pc = s.cur.ifid.ins.idx + 1) ∧
  (s.cur.idex.valid = true → s.cur.ifid.valid = true → s.cur.ifid.ins.idx = s.cur.idex.ins.idx + 1) ∧
  (s.cur.idex.valid = true → s.cur.ifid.valid = false → s.pc = s.cur.idex.ins.idx + 1)

/-- Forwarding is complete (R130): each operand that the instruction in ID/EX uses is resolved to the value
its register has once the instructions before it have taken effect. -/
def OperandsCurrent (s : State) : Prop :=
  s.cur.idex.valid = true →
    (usesA s.cur.idex.ins.ins.op = true →
      operandA s.cur.idex.ins.ins.ra s = readReg (archView s).regs s.cur.idex.ins.ins.ra) ∧
    (usesB s.cur.idex.ins.ins.op = true →
      operandB s.cur.idex.ins.ins.rb s = readReg (archView s).regs s.cur.idex.ins.ins.rb)

/-- The pipeline is coherent with the program: every latched record is the program's, the unexecuted
instructions are in program order, and forwarding is complete. -/
def Coherent (s : State) : Prop :=
  FromProgram s s.cur.ifid.valid s.cur.ifid.ins ∧
  FromProgram s s.cur.idex.valid s.cur.idex.ins ∧
  InProgramOrder s ∧
  OperandsCurrent s

/-! ### States that differ only where no rule looks (R36, R73) -/

/-- Two sets of record fields with the same operation and the same value in every field that it uses
(R72, R73). -/
def SameUse (i j : Instr) : Prop :=
  i.op = j.op ∧ (writesReg i.op = true → i.rd = j.rd) ∧ (usesA i.op = true → i.ra = j.ra) ∧
  (usesB i.op = true → i.rb = j.rb) ∧ (usesImm i.op = true → i.imm = j.imm)

/-- The same for two records at the same position. -/
def SameUseRecord (r q : Record) : Prop := SameUse r.ins q.ins ∧ r.idx = q.idx

/-- The same for two reported stages (R127). -/
def SameUseReport : Option Record → Option Record → Prop
  | none, none => True
  | some r, some q => SameUseRecord r q
  | none, some _ => False
  | some _, none => False

/-- Two trace entries with the same cycle and signals, and the same reported stages but for unused
fields. -/
def SameUseTrace : Option TraceEntry → Option TraceEntry → Prop
  | none, none => True
  | some e, some f =>
    e.cycle = f.cycle ∧ e.stall = f.stall ∧ e.taken = f.taken ∧ e.target = f.target ∧
    SameUseReport e.ifid f.ifid ∧ SameUseReport e.idex f.idex ∧
    SameUseReport e.exmem f.exmem ∧ SameUseReport e.memwb f.memwb
  | none, some _ => False
  | some _, none => False

/-- Two sets of latches that agree on validity and, where valid, on all but unused record fields and the
values computed from them. -/
def SameUseLatches (l k : Latches) : Prop :=
  (l.ifid.valid = k.ifid.valid ∧ (l.ifid.valid = true → SameUseRecord l.ifid.ins k.ifid.ins)) ∧
  (l.idex.valid = k.idex.valid ∧ (l.idex.valid = true →
    SameUseRecord l.idex.ins k.idex.ins ∧
    (usesA l.idex.ins.ins.op = true → l.idex.a = k.idex.a) ∧
    (usesB l.idex.ins.ins.op = true → l.idex.b = k.idex.b))) ∧
  (l.exmem.valid = k.exmem.valid ∧ (l.exmem.valid = true →
    SameUseRecord l.exmem.ins k.exmem.ins ∧ l.exmem.alu = k.exmem.alu ∧
    (l.exmem.ins.ins.op = .sw → l.exmem.sdata = k.exmem.sdata) ∧
    l.exmem.taken = k.exmem.taken ∧ l.exmem.target = k.exmem.target)) ∧
  (l.memwb.valid = k.memwb.valid ∧ (l.memwb.valid = true →
    SameUseRecord l.memwb.ins k.memwb.ins ∧ l.memwb.alu = k.memwb.alu ∧ l.memwb.ldata = k.memwb.ldata))

/-- Two states that differ only in unused record fields, in values computed from them, and in what invalid
latches hold. -/
def SameUseState (s r : State) : Prop :=
  s.regs = r.regs ∧ s.pc = r.pc ∧ s.mem = r.mem ∧ s.cycles = r.cycles ∧ s.retired = r.retired ∧
  List.Forall₂ SameUse s.prog r.prog ∧ SameUseLatches s.cur r.cur ∧ SameUseTrace s.traceOut r.traceOut

/-! ### Timing (R242) -/

/-- The load-use hazard between two instructions that follow each other (R115, R116). -/
def stallsAfter (i j : Instr) : Bool :=
  loadUse { valid := true, ins := { ins := j, idx := 0 } }
    { valid := true, ins := { ins := i, idx := 0 }, a := 0#32, b := 0#32 }

/-- The number of adjacent pairs of a program that have the load-use hazard: `S` of R242. -/
def loadUsePairs : List Instr → Nat
  | [] => 0
  | [_] => 0
  | i :: j :: rest => (stallsAfter i j).toNat + loadUsePairs (j :: rest)

end Sys2Proof.Safety
end

