-- ==== Sys2Proof/Certificates/Slice0/Obligations.lean ====
section
/-! DEFINITION. The statements about the model for the provers. Each says what a numbered rule of spec/, or
a section of it, says of the machine. `s`, `t`, `u`, `v` are the states of successive cycles. -/

open Sys2Proof Sys2Proof.Machine Sys2Proof.Safety

/-! ### Encoding -/

/-- Decoding the word of a canonical record gives the record back, and encoding what a word decodes to
gives the word back (30_encoding.md section 2). -/
def Obligations.EncodeAndDecodeAreInverse : Prop :=
  (∀ i : Instr, i.WellFormed = true → decode (encode i) = .ok i) ∧
  (∀ (w : Word) (i : Instr), decode w = .ok i → encode i = w ∧ i.WellFormed = true)

/-- Each line of the decoder of 30_encoding.md section 2, without reference to the lines before it, since
they are mutually exclusive; every other word is refused; and a program with a refused word is refused as a
whole. That the last refusal is `unlistedWord` with a position is the model's choice (log entry 10): the
spec gives the refusal neither a name nor a position. -/
def Obligations.DecodeFollowsEachLineOfTheTable : Prop :=
  (∀ (w : Word) (k : Int),
    (w = 0x00000000#32 → decodeAt w k = .ok ⟨.nop 0#5 0#5 0#5 0#16, k⟩) ∧
    (w &&& 0xFC0007FF#32 = 0x00000020#32 →
      decodeAt w k = .ok ⟨.add (w.extractLsb' 11 5) (w.extractLsb' 21 5) (w.extractLsb' 16 5) 0#16, k⟩) ∧
    (w &&& 0xFC0007FF#32 = 0x00000022#32 →
      decodeAt w k = .ok ⟨.sub (w.extractLsb' 11 5) (w.extractLsb' 21 5) (w.extractLsb' 16 5) 0#16, k⟩) ∧
    (w &&& 0xFC000000#32 = 0x8C000000#32 →
      decodeAt w k = .ok ⟨.lw (w.extractLsb' 16 5) (w.extractLsb' 21 5) 0#5 (w.extractLsb' 0 16), k⟩) ∧
    (w &&& 0xFC000000#32 = 0xAC000000#32 →
      decodeAt w k = .ok ⟨.sw 0#5 (w.extractLsb' 21 5) (w.extractLsb' 16 5) (w.extractLsb' 0 16), k⟩) ∧
    (w &&& 0xFC000000#32 = 0x10000000#32 →
      decodeAt w k = .ok ⟨.beq 0#5 (w.extractLsb' 21 5) (w.extractLsb' 16 5) (w.extractLsb' 0 16), k⟩) ∧
    (w ≠ 0x00000000#32 → w &&& 0xFC0007FF#32 ≠ 0x00000020#32 → w &&& 0xFC0007FF#32 ≠ 0x00000022#32 →
      w &&& 0xFC000000#32 ≠ 0x8C000000#32 → w &&& 0xFC000000#32 ≠ 0xAC000000#32 →
      w &&& 0xFC000000#32 ≠ 0x10000000#32 → ∃ e, decodeAt w k = .error e)) ∧
  (∀ (words : List Word) (memInit : List (Word × Word)) (regInit : Vector Word 31),
    (∃ w ∈ words, ∃ e, decode w = .error e) →
      ∃ p, launchWords words memInit regInit = .refused (.unlistedWord p))

/-- Words of every format, written out by hand from the field layouts of 30_encoding.md section 2, and
words that are refused. -/
def Obligations.SampleWordsDecode : Prop :=
  decode 0x00000000#32 = .ok (.nop 0#5 0#5 0#5 0#16) ∧
  decode 0b00000000010000100001100000100000#32 = .ok (.add 3#5 2#5 2#5 0#16) ∧
  decode 0b00000000010000110000100000100010#32 = .ok (.sub 1#5 2#5 3#5 0#16) ∧
  decode 0b10001111111111111111111111111111#32 = .ok (.lw 31#5 31#5 0#5 0xFFFF#16) ∧
  decode 0b10101100110001010111111111111111#32 = .ok (.sw 0#5 6#5 5#5 0x7FFF#16) ∧
  decode 0b00010000001000101000000000000000#32 = .ok (.beq 0#5 1#5 2#5 0x8000#16) ∧
  decode 0x00000060#32 = .error (.unlistedWord 0x00000060#32) ∧
  decode 0x00200000#32 = .error (.unlistedWord 0x00200000#32)

/-! ### Load and reset -/

/-- R230: the state that reset leaves, for every program, every finite map MEM_INIT and every REG_INIT. -/
def Obligations.LaunchFollowsTheResetTable : Prop :=
  ∀ (prog : List Instr) (memInit : List (Word × Word)) (regInit : Vector Word 31),
    (memInit.map Prod.fst).Nodup →
    let s := launch prog memInit regInit
    s.regs[0] = 0#32 ∧ (∀ k : Fin 31, s.regs[k.val + 1] = regInit[k.val]) ∧ s.pc = 0 ∧
    s.cur = Latches.empty ∧ s.cycles = 0 ∧ s.retired = 0 ∧
    (∀ c ∈ memInit, memRead s.mem c.1 = c.2) ∧
    (∀ a : Word, a ∉ memInit.map Prod.fst → memRead s.mem a = 0#32) ∧
    s.prog = prog

/-- The model's `State.reset` is the launch of an empty program with an empty MEM_INIT and the all-zero
REG_INIT that log entry 1 chooses (log entry 5), and its run is over, so that a step answers the same state
(log entry 6). -/
def Obligations.ResetIsTheEmptyLaunch : Prop :=
  State.reset = launch [] [] (Vector.replicate 31 0#32) ∧ done State.reset = true ∧
  step State.reset = .next State.reset

/-- A program is launched exactly when every record meets the contract of 70_reset_and_hazards.md
section 2, with the records' own fields; otherwise it is refused. That the refusal is one of three names
with a position in the program is the model's choice (log entry 10): the spec says only that the program is
refused. -/
def Obligations.LaunchAcceptsExactlyTheContract : Prop :=
  ∀ (raw : List RawRecord) (memInit : List (Word × Word)) (regInit : Vector Word 31),
    let accepted := ∀ r ∈ raw,
      (r.op = "nop" ∨ r.op = "add" ∨ r.op = "sub" ∨ r.op = "lw" ∨ r.op = "sw" ∨ r.op = "beq") ∧
      (0 ≤ r.rd ∧ r.rd ≤ 31) ∧ (0 ≤ r.ra ∧ r.ra ≤ 31) ∧ (0 ≤ r.rb ∧ r.rb ≤ 31) ∧
      (-32768 ≤ r.imm ∧ r.imm ≤ 32767)
    (accepted → ∃ prog, launchRecords raw memInit regInit = .next (launch prog memInit regInit) ∧
      List.Forall₂ (fun (r : RawRecord) (i : Instr) => i.op.mnemonic = r.op ∧ (i.rd.toNat : Int) = r.rd ∧
        (i.ra.toNat : Int) = r.ra ∧ (i.rb.toNat : Int) = r.rb ∧ i.imm.toInt = r.imm) raw prog) ∧
    (¬ accepted → ∃ p, p < raw.length ∧
      (launchRecords raw memInit regInit = .refused (.unknownOperation p) ∨
        launchRecords raw memInit regInit = .refused (.registerOutOfRange p) ∨
        launchRecords raw memInit regInit = .refused (.immediateOutOfRange p)))

/-! ### Each instruction completes, in every step of the cycle, with the effect of its rule -/

/-- nop: 41_alu.md section 2, stage by stage. -/
def Obligations.NopCompletesInEveryStage : Prop :=
  ∀ (rd ra rb : Reg) (imm : Imm) (s : State),
    let i := Instr.nop rd ra rb imm
    (s.stage = .fetch → exec i s =
      .next { s with pc := s.pc + 1, nxt := { s.nxt with ifid := ⟨true, ⟨i, s.pc⟩⟩ } }) ∧
    (s.stage = .decode → exec i s = .next { s with nxt := { s.nxt with
      idex := ⟨true, ⟨i, s.cur.ifid.ins.idx⟩, readReg s.regs ra, readReg s.regs rb⟩ } }) ∧
    (s.stage = .execute → exec i s = .next { s with nxt := { s.nxt with
      exmem := ⟨true, ⟨i, s.cur.idex.ins.idx⟩, 0#32, 0#32, false, 0⟩ } }) ∧
    (s.stage = .memory → exec i s = .next { s with nxt := { s.nxt with
      memwb := ⟨true, ⟨i, s.cur.exmem.ins.idx⟩, s.cur.exmem.alu, 0#32⟩ } }) ∧
    (s.stage = .writeback → exec i s = .next { s with retired := s.retired + 1 })

/-- add: 41_alu.md section 3, stage by stage. -/
def Obligations.AddCompletesInEveryStage : Prop :=
  ∀ (rd ra rb : Reg) (imm : Imm) (s : State),
    let i := Instr.add rd ra rb imm
    (s.stage = .fetch → exec i s =
      .next { s with pc := s.pc + 1, nxt := { s.nxt with ifid := ⟨true, ⟨i, s.pc⟩⟩ } }) ∧
    (s.stage = .decode → exec i s = .next { s with nxt := { s.nxt with
      idex := ⟨true, ⟨i, s.cur.ifid.ins.idx⟩, readReg s.regs ra, readReg s.regs rb⟩ } }) ∧
    (s.stage = .execute → exec i s = .next { s with nxt := { s.nxt with
      exmem := ⟨true, ⟨i, s.cur.idex.ins.idx⟩,
        forward s.cur ra s.cur.idex.a + forward s.cur rb s.cur.idex.b, 0#32, false, 0⟩ } }) ∧
    (s.stage = .memory → exec i s = .next { s with nxt := { s.nxt with
      memwb := ⟨true, ⟨i, s.cur.exmem.ins.idx⟩, s.cur.exmem.alu, 0#32⟩ } }) ∧
    (s.stage = .writeback → rd ≠ 0#5 → exec i s =
      .next { s with regs := s.regs.set rd.toNat s.cur.memwb.alu rd.isLt, retired := s.retired + 1 }) ∧
    (s.stage = .writeback → rd = 0#5 → exec i s = .next { s with retired := s.retired + 1 })

/-- sub: 41_alu.md section 4, stage by stage. -/
def Obligations.SubCompletesInEveryStage : Prop :=
  ∀ (rd ra rb : Reg) (imm : Imm) (s : State),
    let i := Instr.sub rd ra rb imm
    (s.stage = .fetch → exec i s =
      .next { s with pc := s.pc + 1, nxt := { s.nxt with ifid := ⟨true, ⟨i, s.pc⟩⟩ } }) ∧
    (s.stage = .decode → exec i s = .next { s with nxt := { s.nxt with
      idex := ⟨true, ⟨i, s.cur.ifid.ins.idx⟩, readReg s.regs ra, readReg s.regs rb⟩ } }) ∧
    (s.stage = .execute → exec i s = .next { s with nxt := { s.nxt with
      exmem := ⟨true, ⟨i, s.cur.idex.ins.idx⟩,
        forward s.cur ra s.cur.idex.a - forward s.cur rb s.cur.idex.b, 0#32, false, 0⟩ } }) ∧
    (s.stage = .memory → exec i s = .next { s with nxt := { s.nxt with
      memwb := ⟨true, ⟨i, s.cur.exmem.ins.idx⟩, s.cur.exmem.alu, 0#32⟩ } }) ∧
    (s.stage = .writeback → rd ≠ 0#5 → exec i s =
      .next { s with regs := s.regs.set rd.toNat s.cur.memwb.alu rd.isLt, retired := s.retired + 1 }) ∧
    (s.stage = .writeback → rd = 0#5 → exec i s = .next { s with retired := s.retired + 1 })

/-- lw: 42_load_store.md section 2, stage by stage. -/
def Obligations.LwCompletesInEveryStage : Prop :=
  ∀ (rd ra rb : Reg) (imm : Imm) (s : State),
    let i := Instr.lw rd ra rb imm
    (s.stage = .fetch → exec i s =
      .next { s with pc := s.pc + 1, nxt := { s.nxt with ifid := ⟨true, ⟨i, s.pc⟩⟩ } }) ∧
    (s.stage = .decode → exec i s = .next { s with nxt := { s.nxt with
      idex := ⟨true, ⟨i, s.cur.ifid.ins.idx⟩, readReg s.regs ra, readReg s.regs rb⟩ } }) ∧
    (s.stage = .execute → exec i s = .next { s with nxt := { s.nxt with
      exmem := ⟨true, ⟨i, s.cur.idex.ins.idx⟩,
        forward s.cur ra s.cur.idex.a + imm.signExtend 32, forward s.cur rb s.cur.idex.b, false, 0⟩ } }) ∧
    (s.stage = .memory → exec i s = .next { s with nxt := { s.nxt with
      memwb := ⟨true, ⟨i, s.cur.exmem.ins.idx⟩, s.cur.exmem.alu, memRead s.mem s.cur.exmem.alu⟩ } }) ∧
    (s.stage = .writeback → rd ≠ 0#5 → exec i s =
      .next { s with regs := s.regs.set rd.toNat s.cur.memwb.ldata rd.isLt, retired := s.retired + 1 }) ∧
    (s.stage = .writeback → rd = 0#5 → exec i s = .next { s with retired := s.retired + 1 })

/-- sw: 42_load_store.md section 3, stage by stage. -/
def Obligations.SwCompletesInEveryStage : Prop :=
  ∀ (rd ra rb : Reg) (imm : Imm) (s : State),
    let i := Instr.sw rd ra rb imm
    (s.stage = .fetch → exec i s =
      .next { s with pc := s.pc + 1, nxt := { s.nxt with ifid := ⟨true, ⟨i, s.pc⟩⟩ } }) ∧
    (s.stage = .decode → exec i s = .next { s with nxt := { s.nxt with
      idex := ⟨true, ⟨i, s.cur.ifid.ins.idx⟩, readReg s.regs ra, readReg s.regs rb⟩ } }) ∧
    (s.stage = .execute → exec i s = .next { s with nxt := { s.nxt with
      exmem := ⟨true, ⟨i, s.cur.idex.ins.idx⟩,
        forward s.cur ra s.cur.idex.a + imm.signExtend 32, forward s.cur rb s.cur.idex.b, false, 0⟩ } }) ∧
    (s.stage = .memory → exec i s = .next { s with
      mem := memWrite s.mem s.cur.exmem.alu s.cur.exmem.sdata
      nxt := { s.nxt with memwb := ⟨true, ⟨i, s.cur.exmem.ins.idx⟩, s.cur.exmem.alu, 0#32⟩ } }) ∧
    (s.stage = .writeback → exec i s = .next { s with retired := s.retired + 1 })

/-- beq: 43_branch.md section 1, stage by stage. -/
def Obligations.BeqCompletesInEveryStage : Prop :=
  ∀ (rd ra rb : Reg) (imm : Imm) (s : State),
    let i := Instr.beq rd ra rb imm
    (s.stage = .fetch → exec i s =
      .next { s with pc := s.pc + 1, nxt := { s.nxt with ifid := ⟨true, ⟨i, s.pc⟩⟩ } }) ∧
    (s.stage = .decode → exec i s = .next { s with nxt := { s.nxt with
      idex := ⟨true, ⟨i, s.cur.ifid.ins.idx⟩, readReg s.regs ra, readReg s.regs rb⟩ } }) ∧
    (s.stage = .execute → forward s.cur ra s.cur.idex.a = forward s.cur rb s.cur.idex.b → exec i s =
      .next { s with nxt := { s.nxt with exmem := ⟨true, ⟨i, s.cur.idex.ins.idx⟩, 0#32, 0#32, true,
        s.cur.idex.ins.idx + 1 + imm.toInt⟩ } }) ∧
    (s.stage = .execute → forward s.cur ra s.cur.idex.a ≠ forward s.cur rb s.cur.idex.b → exec i s =
      .next { s with nxt := { s.nxt with exmem := ⟨true, ⟨i, s.cur.idex.ins.idx⟩, 0#32, 0#32, false, 0⟩ } }) ∧
    (s.stage = .memory → exec i s = .next { s with nxt := { s.nxt with
      memwb := ⟨true, ⟨i, s.cur.exmem.ins.idx⟩, s.cur.exmem.alu, 0#32⟩ } }) ∧
    (s.stage = .writeback → exec i s = .next { s with retired := s.retired + 1 })

/-! ### Frames -/

/-- The frame of add, sub and lw, in every step: the only register that may change is `rd`, and only in
Writeback; register 0 never does; no memory cell changes; nor do the program, the current latches, the
cycle count and the trace port; `pc` changes in Fetch only, `retired` in Writeback only. -/
def Obligations.FrameOfAddSubAndLw : Prop :=
  ∀ (rd ra rb : Reg) (imm : Imm) (i : Instr) (s t : State),
    (i = .add rd ra rb imm ∨ i = .sub rd ra rb imm ∨ i = .lw rd ra rb imm) → exec i s = .next t →
    (∀ q : Reg, q ≠ rd ∨ q = 0#5 ∨ s.stage ≠ .writeback → readReg t.regs q = readReg s.regs q) ∧
    (∀ a : Word, memRead t.mem a = memRead s.mem a) ∧
    t.prog = s.prog ∧ t.cur = s.cur ∧ t.stage = s.stage ∧ t.cycles = s.cycles ∧ t.traceOut = s.traceOut ∧
    (s.stage ≠ .fetch → t.pc = s.pc) ∧ (s.stage ≠ .writeback → t.retired = s.retired) ∧
    (s.stage ≠ .fetch → t.nxt.ifid = s.nxt.ifid) ∧ (s.stage ≠ .decode → t.nxt.idex = s.nxt.idex) ∧
    (s.stage ≠ .execute → t.nxt.exmem = s.nxt.exmem) ∧ (s.stage ≠ .memory → t.nxt.memwb = s.nxt.memwb)

/-- The frame of nop and beq, in every step: no register and no memory cell changes, and the rest as for
add. -/
def Obligations.FrameOfNopAndBeq : Prop :=
  ∀ (rd ra rb : Reg) (imm : Imm) (i : Instr) (s t : State),
    (i = .nop rd ra rb imm ∨ i = .beq rd ra rb imm) → exec i s = .next t →
    t.regs = s.regs ∧ (∀ a : Word, memRead t.mem a = memRead s.mem a) ∧
    t.prog = s.prog ∧ t.cur = s.cur ∧ t.stage = s.stage ∧ t.cycles = s.cycles ∧ t.traceOut = s.traceOut ∧
    (s.stage ≠ .fetch → t.pc = s.pc) ∧ (s.stage ≠ .writeback → t.retired = s.retired) ∧
    (s.stage ≠ .fetch → t.nxt.ifid = s.nxt.ifid) ∧ (s.stage ≠ .decode → t.nxt.idex = s.nxt.idex) ∧
    (s.stage ≠ .execute → t.nxt.exmem = s.nxt.exmem) ∧ (s.stage ≠ .memory → t.nxt.memwb = s.nxt.memwb)

/-- The frame of sw, in every step: no register changes; the one memory cell that may change is the one
whose address Execute left in EX/MEM, and only in the Memory step; the rest as for add. -/
def Obligations.FrameOfSw : Prop :=
  ∀ (rd ra rb : Reg) (imm : Imm) (s t : State), exec (.sw rd ra rb imm) s = .next t →
    t.regs = s.regs ∧
    (∀ a : Word, a ≠ s.cur.exmem.alu ∨ s.stage ≠ .memory → memRead t.mem a = memRead s.mem a) ∧
    t.prog = s.prog ∧ t.cur = s.cur ∧ t.stage = s.stage ∧ t.cycles = s.cycles ∧ t.traceOut = s.traceOut ∧
    (s.stage ≠ .fetch → t.pc = s.pc) ∧ (s.stage ≠ .writeback → t.retired = s.retired) ∧
    (s.stage ≠ .fetch → t.nxt.ifid = s.nxt.ifid) ∧ (s.stage ≠ .decode → t.nxt.idex = s.nxt.idex) ∧
    (s.stage ≠ .execute → t.nxt.exmem = s.nxt.exmem) ∧ (s.stage ≠ .memory → t.nxt.memwb = s.nxt.memwb)

/-! ### A step runs the instructions -/

/-- A cycle runs the meaning of the instruction in every stage: in the order of R101, each on the state
that the step before it left, and then commits. -/
def Obligations.StepRunsTheInstructionOfEveryStage : Prop :=
  ∀ s : State, done s = false →
    ∃ s1 s2 s3 s4 s5 : State, step s = .next (commit s5) ∧
      (s.cur.memwb.valid = true → exec s.cur.memwb.ins.ins { s with stage := .writeback } = .next s1) ∧
      (s.cur.memwb.valid = false → s1 = s) ∧
      (s.cur.exmem.valid = true → exec s.cur.exmem.ins.ins { s1 with stage := .memory } = .next s2) ∧
      (s.cur.exmem.valid = false → s2 = { s1 with nxt := { s1.nxt with memwb := MemWbLatch.invalid } }) ∧
      (s.cur.idex.valid = true → exec s.cur.idex.ins.ins { s2 with stage := .execute } = .next s3) ∧
      (s.cur.idex.valid = false → s3 = { s2 with nxt := { s2.nxt with exmem := ExMemLatch.invalid } }) ∧
      (s.cur.ifid.valid = true → stallSignal s = false → takenSignal s3 = false →
        exec s.cur.ifid.ins.ins { s3 with stage := .decode } = .next s4) ∧
      (s.cur.ifid.valid = false ∨ stallSignal s = true ∨ takenSignal s3 = true →
        s4 = { s3 with nxt := { s3.nxt with idex := IdExLatch.invalid } }) ∧
      (takenSignal s3 = true → s5 = { s4 with
        pc := targetSignal s3, nxt := { s4.nxt with ifid := IfIdLatch.invalid } }) ∧
      (takenSignal s3 = false → stallSignal s = true →
        s5 = { s4 with nxt := { s4.nxt with ifid := s.cur.ifid } }) ∧
      (∀ i, takenSignal s3 = false → stallSignal s = false → fetchAt s.prog s.pc = some i →
        exec i { s4 with stage := .fetch } = .next s5) ∧
      (takenSignal s3 = false → stallSignal s = false → fetchAt s.prog s.pc = none →
        s5 = { s4 with nxt := { s4.nxt with ifid := IfIdLatch.invalid } })

/-- The instruction that a word decodes to, placed where the next cycle fetches, is the one that the next
cycle runs in its Fetch step: the step is the commit of its meaning, and IF/ID then holds it. -/
def Obligations.StepRunsTheDecodedInstruction : Prop :=
  ∀ (s : State) (w : Word) (i : Instr), decode w = .ok i →
    let p := s.withFetchWord 32 w.toNat
    ∃ o t : State, olderSteps p = .next o ∧ exec i { o with stage := .fetch } = .next t ∧
      step p = .next (commit t) ∧ (commit t).cur.ifid = ⟨true, ⟨i, p.pc⟩⟩ ∧ (commit t).pc = p.pc + 1 ∧
      p.pc = max s.pc 0

/-! ### The rules of the cycle -/

/-- R102 and R103: Writeback. -/
def Obligations.WritebackStepFollowsItsRules : Prop :=
  ∀ s : State, done s = false → ∃ t, step s = .next t ∧
    let l := s.cur.memwb
    let op := l.ins.ins.op
    (l.valid = true → (op = .add ∨ op = .sub ∨ op = .lw) → l.ins.ins.rd ≠ 0#5 →
      t.regs = s.regs.set l.ins.ins.rd.toNat (if op = .lw then l.ldata else l.alu) l.ins.ins.rd.isLt) ∧
    (l.valid = false ∨ (op = .nop ∨ op = .sw ∨ op = .beq) ∨ l.ins.ins.rd = 0#5 → t.regs = s.regs) ∧
    (l.valid = true → t.retired = s.retired + 1) ∧ (l.valid = false → t.retired = s.retired)

/-- R104, R105 and R106: Memory. -/
def Obligations.MemoryStepFollowsItsRules : Prop :=
  ∀ s : State, done s = false → ∃ t, step s = .next t ∧
    let l := s.cur.exmem
    let op := l.ins.ins.op
    (l.valid = true → op = .lw → t.cur.memwb = ⟨true, l.ins, l.alu, memRead s.mem l.alu⟩) ∧
    (l.valid = true → op ≠ .lw → t.cur.memwb = ⟨true, l.ins, l.alu, 0#32⟩) ∧
    (l.valid = false → t.cur.memwb = MemWbLatch.invalid) ∧
    (l.valid = true → op = .sw → t.mem = memWrite s.mem l.alu l.sdata) ∧
    (l.valid = false ∨ op ≠ .sw → t.mem = s.mem)

/-- R107, R113 and R114: Execute, operation by operation, on the forwarded operands. -/
def Obligations.ExecuteStepFollowsItsRules : Prop :=
  ∀ s : State, done s = false → ∃ t e, step s = .next t ∧ t.traceOut = some e ∧
    let l := s.cur.idex
    let i := l.ins.ins
    let a := forward s.cur i.ra l.a
    let b := forward s.cur i.rb l.b
    let ea := a + i.imm.signExtend 32
    (l.valid = false → t.cur.exmem = ExMemLatch.invalid ∧ e.taken = false ∧ e.target = 0) ∧
    (l.valid = true → i.op = .nop → t.cur.exmem = ⟨true, l.ins, 0#32, 0#32, false, 0⟩) ∧
    (l.valid = true → i.op = .add → t.cur.exmem = ⟨true, l.ins, a + b, 0#32, false, 0⟩) ∧
    (l.valid = true → i.op = .sub → t.cur.exmem = ⟨true, l.ins, a - b, 0#32, false, 0⟩) ∧
    (l.valid = true → i.op = .lw → t.cur.exmem = ⟨true, l.ins, ea, b, false, 0⟩) ∧
    (l.valid = true → i.op = .sw → t.cur.exmem = ⟨true, l.ins, ea, b, false, 0⟩) ∧
    (l.valid = true → i.op = .beq → a = b →
      t.cur.exmem = ⟨true, l.ins, 0#32, 0#32, true, l.ins.idx + 1 + i.imm.toInt⟩) ∧
    (l.valid = true → i.op = .beq → a ≠ b → t.cur.exmem = ⟨true, l.ins, 0#32, 0#32, false, 0⟩) ∧
    (e.taken = true ↔ l.valid = true ∧ i.op = .beq ∧ a = b) ∧ e.target = t.cur.exmem.target

/-- R108, R109 and R111: the forwarding function and its priority. -/
def Obligations.ForwardingFollowsItsRules : Prop :=
  ∀ (l : Latches) (r : Reg) (latched : Word),
    let x := l.exmem.ins.ins
    let w := l.memwb.ins.ins
    let fromExMem := l.exmem.valid = true ∧ (x.op = .add ∨ x.op = .sub) ∧ x.rd ≠ 0#5 ∧ x.rd = r
    let fromMemWb := l.memwb.valid = true ∧ (w.op = .add ∨ w.op = .sub ∨ w.op = .lw) ∧ w.rd ≠ 0#5 ∧ w.rd = r
    (fromExMem → forward l r latched = l.exmem.alu) ∧
    (¬ fromExMem → fromMemWb → w.op = .lw → forward l r latched = l.memwb.ldata) ∧
    (¬ fromExMem → fromMemWb → w.op ≠ .lw → forward l r latched = l.memwb.alu) ∧
    (¬ fromExMem → ¬ fromMemWb → forward l r latched = latched)

/-- R115: the load-use hazard signal, which a cycle reports in its trace entry. -/
def Obligations.LoadUseStallFollowsItsRule : Prop :=
  ∀ s : State, done s = false → ∃ t e, step s = .next t ∧ t.traceOut = some e ∧
    let j := s.cur.ifid.ins.ins
    let i := s.cur.idex.ins.ins
    (e.stall = true ↔
      s.cur.ifid.valid = true ∧ s.cur.idex.valid = true ∧ i.op = .lw ∧ i.rd ≠ 0#5 ∧
      (((j.op = .add ∨ j.op = .sub ∨ j.op = .lw ∨ j.op = .sw ∨ j.op = .beq) ∧ j.ra = i.rd) ∨
        ((j.op = .add ∨ j.op = .sub ∨ j.op = .sw ∨ j.op = .beq) ∧ j.rb = i.rd)))

/-- R117 and R118: Decode reads the registers after this cycle's Writeback, or puts a bubble into ID/EX;
`stall` and `taken` are never true together. -/
def Obligations.DecodeStepFollowsItsRules : Prop :=
  ∀ s : State, done s = false → ∃ t e, step s = .next t ∧ t.traceOut = some e ∧
    let l := s.cur.ifid
    (l.valid = true → e.stall = false → e.taken = false →
      t.cur.idex = ⟨true, l.ins, readReg t.regs l.ins.ins.ra, readReg t.regs l.ins.ins.rb⟩) ∧
    (l.valid = false ∨ e.stall = true ∨ e.taken = true → t.cur.idex = IdExLatch.invalid) ∧
    ¬ (e.stall = true ∧ e.taken = true)

/-- R119, R120 and R121: Fetch, by the first case that applies. -/
def Obligations.FetchStepFollowsItsRules : Prop :=
  ∀ s : State, done s = false → ∃ t e, step s = .next t ∧ t.traceOut = some e ∧
    (e.taken = true → t.pc = e.target ∧ t.cur.ifid = IfIdLatch.invalid) ∧
    (e.taken = false → e.stall = true → t.pc = s.pc ∧ t.cur.ifid = s.cur.ifid) ∧
    (e.taken = false → e.stall = false → ∀ (h0 : 0 ≤ s.pc) (h1 : s.pc.toNat < s.prog.length),
      t.pc = s.pc + 1 ∧ t.cur.ifid = ⟨true, ⟨s.prog[s.pc.toNat], s.pc⟩⟩) ∧
    (e.taken = false → e.stall = false → (s.pc < 0 ∨ (s.prog.length : Int) ≤ s.pc) →
      t.pc = s.pc ∧ t.cur.ifid = IfIdLatch.invalid)

/-- R123: the cycle built from the instructions' meanings is the step function that the rule writes out. -/
def Obligations.CycleAgreesWithTheStepRule : Prop :=
  ∀ s : State, done s = false → step s = .next (ruleStep s)

/-- R127: the trace entry that a cycle emits, and that the trace has no effect on the core. -/
def Obligations.EveryCycleEmitsItsTraceEntry : Prop :=
  ∀ s : State, done s = false → ∃ t e, step s = .next t ∧ t.traceOut = some e ∧
    e.cycle = s.cycles + 1 ∧ e.stall = stallSignal s ∧
    e.taken = (t.cur.exmem.valid && t.cur.exmem.taken) ∧ e.target = t.cur.exmem.target ∧
    e.ifid = (if t.cur.ifid.valid then some t.cur.ifid.ins else none) ∧
    e.idex = (if t.cur.idex.valid then some t.cur.idex.ins else none) ∧
    e.exmem = (if t.cur.exmem.valid then some t.cur.exmem.ins else none) ∧
    e.memwb = (if t.cur.memwb.valid then some t.cur.memwb.ins else none) ∧
    ∀ o : Option TraceEntry, step { s with traceOut := o } = step s

/-- What `done` is (R124), and that no further cycle executes once it holds, all state staying as the last
commit left it (R46, R212). That a step of a finished state answers that same state as a next state is the
model's reading (log entry 6, DEDUCED). -/
def Obligations.DoneEndsTheRun : Prop :=
  ∀ s : State,
    (done s = true ↔ (s.pc < 0 ∨ (s.prog.length : Int) ≤ s.pc) ∧ s.cur.ifid.valid = false ∧
      s.cur.idex.valid = false ∧ s.cur.exmem.valid = false ∧ s.cur.memwb.valid = false) ∧
    (done s = true → ∀ n, steps n s = .next s)

/-- No number of cycles from any state ends in a fault or a refusal (60_exceptions.md section 1). Past the
end of a run it rests on the model's reading that a finished state answers itself (log entry 6). -/
def Obligations.TheEngineNeverFails : Prop := ∀ s : State, NeverStops s

/-- Every cycle adds 1, stall and bubble cycles included, and from reset `cycles` is the number of cycles
executed (10_state.md section 6): the state after `n` steps is the state after `cycles` of them, none of
which was asked of a finished run. For `n` past the end it rests on the model's reading that a finished
state answers itself (log entry 6). -/
def Obligations.CyclesCountFromReset : Prop :=
  (∀ s : State, done s = false → ∃ t, step s = .next t ∧ t.cycles = s.cycles + 1) ∧
  (∀ (prog : List Instr) (memInit : List (Word × Word)) (regInit : Vector Word 31) (n : Nat),
    let start := launch prog memInit regInit
    ∃ t, steps n start = .next t ∧ t.cycles ≤ n ∧ (done t = false → t.cycles = n) ∧
      steps t.cycles start = .next t ∧
      ∀ m u, m < t.cycles → steps m start = .next u → done u = false)

/-- No instruction and no cycle writes the program store (20_memory.md section 9). -/
def Obligations.ProgramStoreIsImmutable : Prop :=
  (∀ (i : Instr) (s t : State), exec i s = .next t → t.prog = s.prog) ∧
  (∀ s t : State, step s = .next t → t.prog = s.prog)

/-- R125: what the core reports. -/
def Obligations.ResultsReportTheState : Prop :=
  ∀ s : State, (results s).cycles = s.cycles ∧ (results s).retired = s.retired ∧
    (s.retired ≠ 0 → (results s).cpi * (s.retired : Rat) = (s.cycles : Rat)) ∧
    (s.retired = 0 → (results s).cpi = 0) ∧
    (∀ k : Fin 32, (results s).regs[k.val] = s.regs[k.val].toInt) ∧ (results s).mem = s.mem

/-- A run that ends reports the state in which `done` first holds, with one trace entry for each cycle,
numbered one after another (40_pipeline.md sections 10 and 11). -/
def Obligations.RunReportsOneEntryPerCycle : Prop :=
  ∀ (fuel : Nat) (s : State) (r : Results) (es : List TraceEntry), run fuel s = some (r, es) →
    ∃ t, steps es.length s = .next t ∧ done t = true ∧ r = results t ∧
      (∀ k u, k < es.length → steps k s = .next u → done u = false) ∧
      es.map TraceEntry.cycle = (List.range es.length).map (fun k => s.cycles + 1 + k)

/-! ### Whole instructions, through the pipeline -/

/-- add and sub in ID/EX: three cycles later `rd` holds the wrapped sum or difference of the forwarded
operands, no other register has changed in that cycle, and the instruction has retired. -/
def Obligations.ArithmeticReachesItsRegister : Prop :=
  ∀ (s : State) (rd ra rb : Reg) (imm : Imm), s.cur.idex.valid = true →
    (s.cur.idex.ins.ins = .add rd ra rb imm ∨ s.cur.idex.ins.ins = .sub rd ra rb imm) →
    let a := operandA ra s
    let b := operandB rb s
    ∃ t u v, step s = .next t ∧ step t = .next u ∧ step u = .next v ∧
      (rd ≠ 0#5 → s.cur.idex.ins.ins = .add rd ra rb imm →
        (readReg v.regs rd).toInt = (a.toInt + b.toInt).bmod (2 ^ 32)) ∧
      (rd ≠ 0#5 → s.cur.idex.ins.ins = .sub rd ra rb imm →
        (readReg v.regs rd).toInt = (a.toInt - b.toInt).bmod (2 ^ 32)) ∧
      (∀ q : Reg, q ≠ rd ∨ q = 0#5 → readReg v.regs q = readReg u.regs q) ∧
      u.mem = t.mem ∧ v.retired = u.retired + 1

/-- lw in ID/EX: three cycles later `rd` holds the word that its Memory step found at base plus
displacement, modulo 2^32. -/
def Obligations.LoadReachesItsRegister : Prop :=
  ∀ (s : State) (rd ra rb : Reg) (imm : Imm), s.cur.idex.valid = true →
    s.cur.idex.ins.ins = .lw rd ra rb imm →
    let ea : Word := BitVec.ofInt 32 ((operandA ra s).toInt + imm.toInt)
    ∃ t u v, step s = .next t ∧ step t = .next u ∧ step u = .next v ∧
      (rd ≠ 0#5 → readReg v.regs rd = memRead t.mem ea) ∧
      (∀ q : Reg, q ≠ rd ∨ q = 0#5 → readReg v.regs q = readReg u.regs q) ∧
      u.mem = t.mem ∧ v.retired = u.retired + 1

/-- sw in ID/EX: two cycles later the cell at base plus displacement, modulo 2^32, holds the forwarded
source-B, and no other cell has changed in that cycle; a cycle later it retires and writes no register. -/
def Obligations.StoreReachesItsCell : Prop :=
  ∀ (s : State) (rd ra rb : Reg) (imm : Imm), CanonicalMemory s → s.cur.idex.valid = true →
    s.cur.idex.ins.ins = .sw rd ra rb imm →
    let ea : Word := BitVec.ofInt 32 ((operandA ra s).toInt + imm.toInt)
    ∃ t u v, step s = .next t ∧ step t = .next u ∧ step u = .next v ∧
      memRead u.mem ea = operandB rb s ∧
      (∀ a : Word, a ≠ ea → memRead u.mem a = memRead t.mem a) ∧
      v.regs = u.regs ∧ v.retired = u.retired + 1

/-- beq in ID/EX: on equal operands the same cycle redirects `pc`, squashes the instruction in IF/ID and
fetches nothing; on unequal operands the fall-through goes on. Either way it retires and changes neither
registers nor memory. -/
def Obligations.BranchRedirectsAndSquashes : Prop :=
  ∀ (s : State) (rd ra rb : Reg) (imm : Imm), s.cur.idex.valid = true →
    s.cur.idex.ins.ins = .beq rd ra rb imm →
    ∃ t u v, step s = .next t ∧ step t = .next u ∧ step u = .next v ∧
      (operandA ra s = operandB rb s → t.pc = s.cur.idex.ins.idx + 1 + imm.toInt ∧
        t.cur.idex.valid = false ∧ t.cur.ifid.valid = false) ∧
      (operandA ra s ≠ operandB rb s → t.cur.idex.valid = s.cur.ifid.valid ∧
        (s.cur.ifid.valid = true → t.cur.idex.ins = s.cur.ifid.ins) ∧
        t.pc = (if 0 ≤ s.pc ∧ s.pc < s.prog.length then s.pc + 1 else s.pc)) ∧
      u.mem = t.mem ∧ v.regs = u.regs ∧ v.retired = u.retired + 1

/-- A lw right behind a sw to the same address loads the stored word (20_memory.md section 8). -/
def Obligations.LoadSeesTheStoreBeforeIt : Prop :=
  ∀ (s : State) (rd ra rb : Reg) (imm : Imm), CanonicalMemory s →
    s.cur.exmem.valid = true → s.cur.exmem.ins.ins.op = .sw →
    s.cur.idex.valid = true → s.cur.idex.ins.ins = .lw rd ra rb imm →
    effectiveAddress (operandA ra s) imm = s.cur.exmem.alu →
    ∃ t u v, step s = .next t ∧ step t = .next u ∧ step u = .next v ∧
      (rd ≠ 0#5 → readReg v.regs rd = s.cur.exmem.sdata)

/-- A taken branch out of the program ends the run: three cycles later `done` holds (43_branch.md, the
section on target range). -/
def Obligations.BranchOutOfTheProgramEndsTheRun : Prop :=
  ∀ (s : State) (rd ra rb : Reg) (imm : Imm), s.cur.idex.valid = true →
    s.cur.idex.ins.ins = .beq rd ra rb imm → operandA ra s = operandB rb s →
    (s.cur.idex.ins.idx + 1 + imm.toInt < 0 ∨
      (s.prog.length : Int) ≤ s.cur.idex.ins.idx + 1 + imm.toInt) →
    ∃ t u v, step s = .next t ∧ step t = .next u ∧ step u = .next v ∧ done u = false ∧ done v = true

/-! ### Invariants -/

/-- R21: register 0 reads 0, a write to it is discarded, and every cycle keeps it 0. -/
def Obligations.StepKeepsRegisterZero : Prop :=
  (∀ x : Vector Word 32, readReg x 0#5 = 0#32) ∧ (∀ (x : Vector Word 32) (v : Word), writeReg x 0#5 v = x) ∧
  (∀ s t : State, ZeroRegister s → step s = .next t → ZeroRegister t)

/-- Every cycle keeps the memory in its canonical form, which is the model's own (log entry 2). -/
def Obligations.StepKeepsTheMemoryCanonical : Prop :=
  ∀ s t : State, CanonicalMemory s → step s = .next t → CanonicalMemory t

/-- Every cycle keeps the form of the latches: an invalid latch holds the bubble, the fields that an
operation leaves undefined are 0, and between cycles the next latches are empty (10_state.md section 5). The
empty next latches and the stage field are the model's own (log entry 3). -/
def Obligations.StepKeepsTheFormOfTheLatches : Prop :=
  ∀ s t : State, Bubbled s.cur → UndefinedFieldsZero s.cur → Settled s → step s = .next t →
    Bubbled t.cur ∧ UndefinedFieldsZero t.cur ∧ Settled t

/-- Every cycle keeps the pipeline coherent with the program: its latched records are the program's, they
stand in program order, and forwarding is complete (40_pipeline.md section 13). -/
def Obligations.StepKeepsThePipelineCoherent : Prop :=
  ∀ s t : State, Coherent s → step s = .next t → Coherent t

/-- Every launch state meets every invariant. The canonical form of the memory, and the empty next latches
with the stage field at Fetch, are the model's own forms (log entries 2 and 3). -/
def Obligations.LaunchMeetsEveryInvariant : Prop :=
  ∀ (prog : List Instr) (memInit : List (Word × Word)) (regInit : Vector Word 31),
    let s := launch prog memInit regInit
    ZeroRegister s ∧ CanonicalMemory s ∧ Bubbled s.cur ∧ UndefinedFieldsZero s.cur ∧ Settled s ∧ Coherent s

/-- A canonical memory (log entry 2) is determined by what its cells read as (20_memory.md section 12). -/
def Obligations.CanonicalMemoriesAreTheirFunction : Prop :=
  ∀ m n : Memory, m.wf = true → n.wf = true → (∀ a : Word, memRead m a = memRead n a) → m = n

/-! ### The pipeline and the program -/

/-- In a coherent pipeline, a cycle executes exactly the instruction in ID/EX: the state that the executed
instructions leave moves by one instruction in program order, or not at all (40_pipeline.md section 13). -/
def Obligations.CycleExecutesOneInstructionInOrder : Prop :=
  ∀ s t : State, Coherent s → step s = .next t →
    archView t = if s.cur.idex.valid then archStep s.prog (archView s) else archView s

/-- The pipeline computes the sequential result, whatever its timing: after any number of cycles from a
launch, the executed instructions have left what as many instructions in program order leave, and when the
run is over the registers, the memory and `pc` are those of the `retired` instructions
(70_reset_and_hazards.md section 3). CycleExecutesOneInstructionInOrder and StepKeepsThePipelineCoherent are
its step lemmas. For `n` past the end it rests on the model's reading that a finished state answers itself
(log entry 6). -/
def Obligations.RunsComputeTheSequentialResult : Prop :=
  ∀ (prog : List Instr) (memInit : List (Word × Word)) (regInit : Vector Word 31) (n : Nat),
    let start : Arch := { regs := initialRegs regInit, mem := initialMemory memInit, pc := 0 }
    ∃ t, steps n (launch prog memInit regInit) = .next t ∧
      archView t = archRun prog (t.retired + executedInFlight t) start ∧
      (done t = true → t.regs = (archRun prog t.retired start).regs ∧
        t.mem = (archRun prog t.retired start).mem ∧ t.pc = (archRun prog t.retired start).pc)

/-- R73: unused record fields have no effect on any result, signal, counter or trace; and every record
from a word has 0 in them. -/
def Obligations.UnusedFieldsHaveNoEffect : Prop :=
  (∀ s r : State, SameUseState s r →
    ∃ t q, step s = .next t ∧ step r = .next q ∧ SameUseState t q) ∧
  (∀ (w : Word) (i : Instr), decode w = .ok i →
    (writesReg i.op = false → i.rd = 0#5) ∧ (usesA i.op = false → i.ra = 0#5) ∧
    (usesB i.op = false → i.rb = 0#5) ∧ (usesImm i.op = false → i.imm = 0#16))

/-- A branch-free program of N ≥ 1 instructions takes N + 4 + S cycles, where S counts its load-use pairs,
and retires all N (70_reset_and_hazards.md section 4). -/
def Obligations.BranchFreeProgramsTakeTheirCycles : Prop :=
  ∀ (prog : List Instr) (memInit : List (Word × Word)) (regInit : Vector Word 31), prog ≠ [] →
    (∀ i ∈ prog, i.op ≠ .beq) →
    ∃ t, steps (prog.length + 4 + loadUsePairs prog) (launch prog memInit regInit) = .next t ∧
      done t = true ∧ t.cycles = prog.length + 4 + loadUsePairs prog ∧ t.retired = prog.length
end

