-- ==== Sys2Proof/Laws/Encoding.lean ====
section
/-! SUPPORT. The two word formats, bit by bit: what the fixed bits of an encoded word are and what its
fields read (R77, R78). -/

namespace Sys2Proof

/-- The fixed bits of an add or sub word (R77, R81). -/
theorem encodeR_fixedBits {funct : BitVec 6} (hf : funct = 0b100000#6 ∨ funct = 0b100010#6)
    (rd ra rb : Reg) : encodeR funct rd ra rb &&& 0xFC0007FF#32 = funct.setWidth 32 := by
  unfold encodeR
  rcases hf with rfl | rfl <;>
  · ext j hj
    simp only [BitVec.getElem_and, BitVec.getElem_append]
    interval_cases j <;> simp

/-- The fields of an R-format word (R77). -/
theorem encodeR_fields (funct : BitVec 6) (rd ra rb : Reg) :
    fieldA (encodeR funct rd ra rb) = ra ∧ fieldB (encodeR funct rd ra rb) = rb ∧
      fieldD (encodeR funct rd ra rb) = rd := by
  unfold fieldA fieldB fieldD encodeR
  refine ⟨?_, ?_, ?_⟩ <;>
  · ext j hj
    simp only [BitVec.getElem_extractLsb', BitVec.getLsbD_append]
    interval_cases j <;> simp

/-- The fixed bits of an I-format word (R78, R81). -/
theorem encodeI_fixedBits (opcode : BitVec 6) (ra t : Reg) (imm : Imm) :
    encodeI opcode ra t imm &&& 0xFC000000#32 = (opcode ++ 0#26 : BitVec 32) := by
  unfold encodeI
  ext j hj
  simp only [BitVec.getElem_and]
  rw [BitVec.getElem_append, BitVec.getElem_append (x := opcode)]
  simp only [BitVec.getElem_append]
  interval_cases j <;> simp

/-- The fields of an I-format word (R78). -/
theorem encodeI_fields (opcode : BitVec 6) (ra t : Reg) (imm : Imm) :
    fieldA (encodeI opcode ra t imm) = ra ∧ fieldB (encodeI opcode ra t imm) = t ∧
      fieldImm (encodeI opcode ra t imm) = imm := by
  unfold fieldA fieldB fieldImm encodeI
  refine ⟨?_, ?_, ?_⟩ <;>
  · ext j hj
    simp only [BitVec.getElem_extractLsb', BitVec.getLsbD_append]
    interval_cases j <;> simp

end Sys2Proof
end

