-- ==== Sys2Proof/Laws/Memory.lean ====
section
/-! SUPPORT. The laws of the register file and of the data memory: what a read gives after a write, and that
every memory operation keeps the canonical form (R15, R52, R53, R67). -/

namespace Sys2Proof.Machine

/-! ### Registers -/

/-- Register 0 reads 0, whatever the file holds (R21). -/
@[simp] theorem readReg_zero (x : Vector Word 32) : readReg x 0#5 = 0#32 := by simp [readReg]

/-- A write to register 0 is discarded (R21). -/
@[simp] theorem writeReg_zero (x : Vector Word 32) (v : Word) : writeReg x 0#5 v = x := by simp [writeReg]

/-- Everything a register read can give after a register write. -/
theorem readReg_writeReg (x : Vector Word 32) (r q : Reg) (v : Word) :
    readReg (writeReg x r v) q = if r ≠ 0#5 ∧ q = r then v else readReg x q := by
  unfold readReg writeReg
  by_cases hr : r = 0#5
  · simp [hr]
  · by_cases hq : q = r
    · subst hq; simp [hr]
    · have hne : r.toNat ≠ q.toNat := fun h => hq (BitVec.eq_of_toNat_eq h.symm)
      simp [hr, hq, hne]

theorem readReg_writeReg_same (x : Vector Word 32) {r : Reg} (h : r ≠ 0#5) (v : Word) :
    readReg (writeReg x r v) r = v := by simp [readReg_writeReg, h]

theorem readReg_writeReg_other (x : Vector Word 32) {r q : Reg} (h : q ≠ r) (v : Word) :
    readReg (writeReg x r v) q = readReg x q := by simp [readReg_writeReg, h]

/-- A register write leaves what is stored for register 0 alone. -/
theorem writeReg_getZero (x : Vector Word 32) (r : Reg) (v : Word) : (writeReg x r v)[0] = x[0] := by
  unfold writeReg
  by_cases hr : r = 0#5
  · simp [hr]
  · have : r.toNat ≠ 0 := fun h => hr (BitVec.eq_of_toNat_eq (by simpa using h))
    simp [hr, this]

/-! ### Cells -/

/-- In canonical form, an address below the first one that may be listed is not listed. -/
theorem readCell_below {m : Memory} {lo a : Nat} (h : Memory.wfFrom lo m = true) (ha : a < lo) :
    readCell m a = 0#32 := by
  induction m generalizing lo with
  | nil => rfl
  | cons c rest ih =>
    obtain ⟨k, v⟩ := c
    simp only [Memory.wfFrom, Bool.and_eq_true, decide_eq_true_eq] at h
    obtain ⟨⟨⟨hlo, -⟩, -⟩, hrest⟩ := h
    have hne : a ≠ k := by omega
    simpa [readCell, hne] using ih hrest (by omega)

/-- The canonical form from an address holds from every lower one. -/
theorem wfFrom_mono {m : Memory} {lo lo' : Nat} (hl : lo' ≤ lo) (h : Memory.wfFrom lo m = true) :
    Memory.wfFrom lo' m = true := by
  cases m with
  | nil => rfl
  | cons c rest =>
    simp only [Memory.wfFrom, Bool.and_eq_true, decide_eq_true_eq] at h ⊢
    exact ⟨⟨⟨le_trans hl h.1.1.1, h.1.1.2⟩, h.1.2⟩, h.2⟩

/-- A write leaves every other cell alone, in any list of cells (R53). -/
theorem readCell_writeCell_other (m : Memory) {a b : Nat} (v : Word) (h : b ≠ a) :
    readCell (writeCell m a v) b = readCell m b := by
  induction m with
  | nil => by_cases hv : v = 0#32 <;> simp [writeCell, readCell, hv, h]
  | cons c rest ih =>
    obtain ⟨k, w⟩ := c
    unfold writeCell
    by_cases hk : a < k
    · by_cases hv : v = 0#32 <;> simp [hk, hv, readCell, h]
    · by_cases hak : a = k
      · subst hak
        by_cases hv : v = 0#32 <;> simp [hv, readCell, h]
      · simp [hk, hak, readCell, ih]

/-- A cell reads what was last written to it, in canonical form. -/
theorem readCell_writeCell_same {m : Memory} {lo : Nat} (a : Nat) (v : Word)
    (h : Memory.wfFrom lo m = true) : readCell (writeCell m a v) a = v := by
  induction m generalizing lo with
  | nil => by_cases hv : v = 0#32 <;> simp [writeCell, readCell, hv]
  | cons c rest ih =>
    obtain ⟨k, w⟩ := c
    have h' := h
    simp only [Memory.wfFrom, Bool.and_eq_true, decide_eq_true_eq] at h'
    obtain ⟨⟨⟨-, -⟩, -⟩, hrest⟩ := h'
    unfold writeCell
    by_cases hk : a < k
    · by_cases hv : v = 0#32
      · have hne : a ≠ k := by omega
        simp [hk, hv, readCell, hne, readCell_below hrest (show a < k + 1 by omega)]
      · simp [hk, hv, readCell]
    · by_cases hak : a = k
      · subst hak
        by_cases hv : v = 0#32
        · simp [hv, readCell_below hrest (Nat.lt_succ_self _)]
        · simp [hv, readCell]
      · simp [hk, hak, readCell, ih hrest]

/-- A write keeps the canonical form. -/
theorem wfFrom_writeCell {m : Memory} {lo a : Nat} (v : Word) (h : Memory.wfFrom lo m = true)
    (hlo : lo ≤ a) (ha : a < 2 ^ 32) : Memory.wfFrom lo (writeCell m a v) = true := by
  induction m generalizing lo with
  | nil =>
    by_cases hv : v = 0#32
    · simp [writeCell, Memory.wfFrom, hv]
    · simpa [writeCell, Memory.wfFrom, hv, hlo] using ha
  | cons c rest ih =>
    obtain ⟨k, w⟩ := c
    have h' := h
    simp only [Memory.wfFrom, Bool.and_eq_true, decide_eq_true_eq] at h'
    obtain ⟨⟨⟨hk1, hk2⟩, hw⟩, hrest⟩ := h'
    unfold writeCell
    by_cases hk : a < k
    · by_cases hv : v = 0#32
      · simpa [hk, hv] using h
      · simp only [hk, hv, if_true, if_false, Memory.wfFrom, Bool.and_eq_true, decide_eq_true_eq]
        exact ⟨⟨⟨hlo, ha⟩, by simpa using hv⟩, ⟨⟨by omega, hk2⟩, hw⟩, hrest⟩
    · by_cases hak : a = k
      · subst hak
        by_cases hv : v = 0#32
        · simpa [hv] using wfFrom_mono (by omega) hrest
        · simp only [lt_irrefl, hv, if_true, if_false, Memory.wfFrom, Bool.and_eq_true, decide_eq_true_eq]
          exact ⟨⟨⟨hlo, ha⟩, by simpa using hv⟩, hrest⟩
      · simp only [hk, hak, if_false, Memory.wfFrom, Bool.and_eq_true, decide_eq_true_eq]
        exact ⟨⟨⟨hk1, hk2⟩, hw⟩, ih hrest (by omega)⟩

/-! ### The memory primitives -/

/-- Everything a read can give after a write (R58). -/
theorem memRead_memWrite {m : Memory} (h : m.wf = true) (a b v : Word) :
    memRead (memWrite m a v) b = if b = a then v else memRead m b := by
  by_cases hb : b = a
  · subst hb; simpa [memRead, memWrite] using readCell_writeCell_same b.toNat v h
  · have hne : b.toNat ≠ a.toNat := fun e => hb (BitVec.eq_of_toNat_eq e)
    simpa [memRead, memWrite, hb] using readCell_writeCell_other m v hne

/-- A store changes one cell only, whatever form the list of cells has (R53). -/
theorem memRead_memWrite_other (m : Memory) {a b : Word} (v : Word) (h : b ≠ a) :
    memRead (memWrite m a v) b = memRead m b :=
  readCell_writeCell_other m v fun e => h (BitVec.eq_of_toNat_eq e)

/-- A store keeps the canonical form. -/
theorem wf_memWrite {m : Memory} (h : m.wf = true) (a v : Word) : (memWrite m a v).wf = true :=
  wfFrom_writeCell v h (Nat.zero_le _) a.isLt

/-- Building a memory from a list of cells keeps the canonical form. -/
theorem wf_foldl_memWrite (cells : List (Word × Word)) {m : Memory} (h : m.wf = true) :
    (cells.foldl (fun m cell => memWrite m cell.1 cell.2) m).wf = true := by
  induction cells generalizing m with
  | nil => exact h
  | cons c rest ih => exact ih (wf_memWrite h c.1 c.2)

/-- MEM_INIT gives a memory in canonical form. -/
theorem wf_initialMemory (memInit : List (Word × Word)) : (initialMemory memInit).wf = true :=
  wf_foldl_memWrite memInit rfl

/-- The memory of the reset state is in canonical form. -/
theorem wf_reset : State.reset.mem.wf = true := rfl

end Sys2Proof.Machine
end

