-- ==== Sys2Proof/Laws/Load.lean ====
section
/-! SUPPORT. The laws of the load interface: the register file at launch, and what an operation name
spells. -/

namespace Sys2Proof.Machine

/-- At launch the file holds 0 for register 0 (R24). -/
theorem initialRegs_zero (x : Vector Word 31) : (initialRegs x)[0] = 0#32 := by
  show (#v[0#32] ++ x : Vector Word (1 + 31))[0] = 0#32
  rw [Vector.getElem_append_left (by omega)]; rfl

/-- At launch the file holds REG_INIT for registers 1 to 31 (R24). -/
theorem initialRegs_succ (x : Vector Word 31) (k : Nat) (h : k < 31) :
    (initialRegs x)[k + 1] = x[k] := by
  show (#v[0#32] ++ x : Vector Word (1 + 31))[k + 1] = x[k]
  rw [Vector.getElem_append_right (by omega) (by omega)]; rfl

/-- A name spells an operation exactly when it is that operation's mnemonic (R71, R86). -/
theorem opOfName_eq_some {name : String} {op : Op} : opOfName name = some op ↔ op.mnemonic = name := by
  constructor
  · intro h
    simpa using List.find?_some h
  · rintro rfl
    cases op <;> decide

/-- The fields of a record put together from its operation and fields. -/
@[simp] theorem instrOf_op (o : Op) (rd ra rb : Reg) (imm : Imm) : (instrOf o rd ra rb imm).op = o := by
  cases o <;> rfl
@[simp] theorem instrOf_rd (o : Op) (rd ra rb : Reg) (imm : Imm) : (instrOf o rd ra rb imm).rd = rd := by
  cases o <;> rfl
@[simp] theorem instrOf_ra (o : Op) (rd ra rb : Reg) (imm : Imm) : (instrOf o rd ra rb imm).ra = ra := by
  cases o <;> rfl
@[simp] theorem instrOf_rb (o : Op) (rd ra rb : Reg) (imm : Imm) : (instrOf o rd ra rb imm).rb = rb := by
  cases o <;> rfl
@[simp] theorem instrOf_imm (o : Op) (rd ra rb : Reg) (imm : Imm) : (instrOf o rd ra rb imm).imm = imm := by
  cases o <;> rfl

/-- A register field in range keeps its value (R70). -/
theorem toNat_ofInt_register {z : Int} (h0 : 0 ≤ z) (h1 : z ≤ 31) :
    ((BitVec.ofInt 5 z).toNat : Int) = z := by
  rw [BitVec.toNat_ofInt]
  have : z % (2 ^ 5 : Nat) = z := Int.emod_eq_of_lt h0 (by omega)
  omega

/-- An immediate in range keeps its value (R75). -/
theorem toInt_ofInt_immediate {z : Int} (h0 : -32768 ≤ z) (h1 : z ≤ 32767) :
    (BitVec.ofInt 16 z).toInt = z := by
  rw [BitVec.toInt_ofInt]; exact Int.bmod_eq_of_le (by omega) (by omega)

end Sys2Proof.Machine
end

