-- ==== Sys2Proof/Laws/State.lean ====
section
/-! SUPPORT. One lemma for each field of State after each update of it, all true by unfolding the update
once. Later proofs cite these and unfold no record update. -/

namespace Sys2Proof.Machine

/-! ### `fetchStage` -/

@[simp] theorem fetchStage_regs (i : Instr) (s : State) : (fetchStage i s).regs = s.regs := rfl
@[simp] theorem fetchStage_pc (i : Instr) (s : State) : (fetchStage i s).pc = s.pc + 1 := rfl
@[simp] theorem fetchStage_mem (i : Instr) (s : State) : (fetchStage i s).mem = s.mem := rfl
@[simp] theorem fetchStage_prog (i : Instr) (s : State) : (fetchStage i s).prog = s.prog := rfl
@[simp] theorem fetchStage_cur (i : Instr) (s : State) : (fetchStage i s).cur = s.cur := rfl
@[simp] theorem fetchStage_nxt (i : Instr) (s : State) :
    (fetchStage i s).nxt = { s.nxt with ifid := ⟨true, ⟨i, s.pc⟩⟩ } := rfl
@[simp] theorem fetchStage_stage (i : Instr) (s : State) : (fetchStage i s).stage = s.stage := rfl
@[simp] theorem fetchStage_cycles (i : Instr) (s : State) : (fetchStage i s).cycles = s.cycles := rfl
@[simp] theorem fetchStage_retired (i : Instr) (s : State) : (fetchStage i s).retired = s.retired := rfl
@[simp] theorem fetchStage_traceOut (i : Instr) (s : State) : (fetchStage i s).traceOut = s.traceOut := rfl

/-! ### `decodeStage` -/

@[simp] theorem decodeStage_regs (i : Instr) (s : State) : (decodeStage i s).regs = s.regs := rfl
@[simp] theorem decodeStage_pc (i : Instr) (s : State) : (decodeStage i s).pc = s.pc := rfl
@[simp] theorem decodeStage_mem (i : Instr) (s : State) : (decodeStage i s).mem = s.mem := rfl
@[simp] theorem decodeStage_prog (i : Instr) (s : State) : (decodeStage i s).prog = s.prog := rfl
@[simp] theorem decodeStage_cur (i : Instr) (s : State) : (decodeStage i s).cur = s.cur := rfl
@[simp] theorem decodeStage_nxt (i : Instr) (s : State) :
    (decodeStage i s).nxt = { s.nxt with
        idex := ⟨true, ⟨i, s.cur.ifid.ins.idx⟩, readReg s.regs i.ra, readReg s.regs i.rb⟩ } := rfl
@[simp] theorem decodeStage_stage (i : Instr) (s : State) : (decodeStage i s).stage = s.stage := rfl
@[simp] theorem decodeStage_cycles (i : Instr) (s : State) : (decodeStage i s).cycles = s.cycles := rfl
@[simp] theorem decodeStage_retired (i : Instr) (s : State) : (decodeStage i s).retired = s.retired := rfl
@[simp] theorem decodeStage_traceOut (i : Instr) (s : State) :
    (decodeStage i s).traceOut = s.traceOut := rfl

/-! ### `executeStage` -/

@[simp] theorem executeStage_regs (i : Instr) (r : ExecResult) (s : State) :
    (executeStage i r s).regs = s.regs := rfl
@[simp] theorem executeStage_pc (i : Instr) (r : ExecResult) (s : State) :
    (executeStage i r s).pc = s.pc := rfl
@[simp] theorem executeStage_mem (i : Instr) (r : ExecResult) (s : State) :
    (executeStage i r s).mem = s.mem := rfl
@[simp] theorem executeStage_prog (i : Instr) (r : ExecResult) (s : State) :
    (executeStage i r s).prog = s.prog := rfl
@[simp] theorem executeStage_cur (i : Instr) (r : ExecResult) (s : State) :
    (executeStage i r s).cur = s.cur := rfl
@[simp] theorem executeStage_nxt (i : Instr) (r : ExecResult) (s : State) :
    (executeStage i r s).nxt = { s.nxt with
        exmem := ⟨true, ⟨i, s.cur.idex.ins.idx⟩, r.alu, r.sdata, r.taken, r.target⟩ } := rfl
@[simp] theorem executeStage_stage (i : Instr) (r : ExecResult) (s : State) :
    (executeStage i r s).stage = s.stage := rfl
@[simp] theorem executeStage_cycles (i : Instr) (r : ExecResult) (s : State) :
    (executeStage i r s).cycles = s.cycles := rfl
@[simp] theorem executeStage_retired (i : Instr) (r : ExecResult) (s : State) :
    (executeStage i r s).retired = s.retired := rfl
@[simp] theorem executeStage_traceOut (i : Instr) (r : ExecResult) (s : State) :
    (executeStage i r s).traceOut = s.traceOut := rfl

/-! ### `memoryStage` -/

@[simp] theorem memoryStage_regs (i : Instr) (v : Word) (s : State) :
    (memoryStage i v s).regs = s.regs := rfl
@[simp] theorem memoryStage_pc (i : Instr) (v : Word) (s : State) : (memoryStage i v s).pc = s.pc := rfl
@[simp] theorem memoryStage_mem (i : Instr) (v : Word) (s : State) : (memoryStage i v s).mem = s.mem := rfl
@[simp] theorem memoryStage_prog (i : Instr) (v : Word) (s : State) :
    (memoryStage i v s).prog = s.prog := rfl
@[simp] theorem memoryStage_cur (i : Instr) (v : Word) (s : State) : (memoryStage i v s).cur = s.cur := rfl
@[simp] theorem memoryStage_nxt (i : Instr) (v : Word) (s : State) :
    (memoryStage i v s).nxt = { s.nxt with memwb := ⟨true, ⟨i, s.cur.exmem.ins.idx⟩, s.cur.exmem.alu, v⟩ } := rfl
@[simp] theorem memoryStage_stage (i : Instr) (v : Word) (s : State) :
    (memoryStage i v s).stage = s.stage := rfl
@[simp] theorem memoryStage_cycles (i : Instr) (v : Word) (s : State) :
    (memoryStage i v s).cycles = s.cycles := rfl
@[simp] theorem memoryStage_retired (i : Instr) (v : Word) (s : State) :
    (memoryStage i v s).retired = s.retired := rfl
@[simp] theorem memoryStage_traceOut (i : Instr) (v : Word) (s : State) :
    (memoryStage i v s).traceOut = s.traceOut := rfl

/-! ### `storeData` -/

@[simp] theorem storeData_regs (s : State) : (storeData s).regs = s.regs := rfl
@[simp] theorem storeData_pc (s : State) : (storeData s).pc = s.pc := rfl
@[simp] theorem storeData_mem (s : State) :
    (storeData s).mem = memWrite s.mem s.cur.exmem.alu s.cur.exmem.sdata := rfl
@[simp] theorem storeData_prog (s : State) : (storeData s).prog = s.prog := rfl
@[simp] theorem storeData_cur (s : State) : (storeData s).cur = s.cur := rfl
@[simp] theorem storeData_nxt (s : State) : (storeData s).nxt = s.nxt := rfl
@[simp] theorem storeData_stage (s : State) : (storeData s).stage = s.stage := rfl
@[simp] theorem storeData_cycles (s : State) : (storeData s).cycles = s.cycles := rfl
@[simp] theorem storeData_retired (s : State) : (storeData s).retired = s.retired := rfl
@[simp] theorem storeData_traceOut (s : State) : (storeData s).traceOut = s.traceOut := rfl

/-! ### `retire` -/

@[simp] theorem retire_regs (s : State) : (retire s).regs = s.regs := rfl
@[simp] theorem retire_pc (s : State) : (retire s).pc = s.pc := rfl
@[simp] theorem retire_mem (s : State) : (retire s).mem = s.mem := rfl
@[simp] theorem retire_prog (s : State) : (retire s).prog = s.prog := rfl
@[simp] theorem retire_cur (s : State) : (retire s).cur = s.cur := rfl
@[simp] theorem retire_nxt (s : State) : (retire s).nxt = s.nxt := rfl
@[simp] theorem retire_stage (s : State) : (retire s).stage = s.stage := rfl
@[simp] theorem retire_cycles (s : State) : (retire s).cycles = s.cycles := rfl
@[simp] theorem retire_retired (s : State) : (retire s).retired = s.retired + 1 := rfl
@[simp] theorem retire_traceOut (s : State) : (retire s).traceOut = s.traceOut := rfl

/-! ### `writeBack` -/

@[simp] theorem writeBack_regs (r : Reg) (v : Word) (s : State) :
    (writeBack r v s).regs = writeReg s.regs r v := rfl
@[simp] theorem writeBack_pc (r : Reg) (v : Word) (s : State) : (writeBack r v s).pc = s.pc := rfl
@[simp] theorem writeBack_mem (r : Reg) (v : Word) (s : State) : (writeBack r v s).mem = s.mem := rfl
@[simp] theorem writeBack_prog (r : Reg) (v : Word) (s : State) : (writeBack r v s).prog = s.prog := rfl
@[simp] theorem writeBack_cur (r : Reg) (v : Word) (s : State) : (writeBack r v s).cur = s.cur := rfl
@[simp] theorem writeBack_nxt (r : Reg) (v : Word) (s : State) : (writeBack r v s).nxt = s.nxt := rfl
@[simp] theorem writeBack_stage (r : Reg) (v : Word) (s : State) : (writeBack r v s).stage = s.stage := rfl
@[simp] theorem writeBack_cycles (r : Reg) (v : Word) (s : State) :
    (writeBack r v s).cycles = s.cycles := rfl
@[simp] theorem writeBack_retired (r : Reg) (v : Word) (s : State) :
    (writeBack r v s).retired = s.retired := rfl
@[simp] theorem writeBack_traceOut (r : Reg) (v : Word) (s : State) :
    (writeBack r v s).traceOut = s.traceOut := rfl

/-! ### `commit` -/

@[simp] theorem commit_regs (s : State) : (commit s).regs = s.regs := rfl
@[simp] theorem commit_pc (s : State) : (commit s).pc = s.pc := rfl
@[simp] theorem commit_mem (s : State) : (commit s).mem = s.mem := rfl
@[simp] theorem commit_prog (s : State) : (commit s).prog = s.prog := rfl
@[simp] theorem commit_cur (s : State) : (commit s).cur = s.nxt := rfl
@[simp] theorem commit_nxt (s : State) : (commit s).nxt = Latches.empty := rfl
@[simp] theorem commit_stage (s : State) : (commit s).stage = .fetch := rfl
@[simp] theorem commit_cycles (s : State) : (commit s).cycles = s.cycles + 1 := rfl
@[simp] theorem commit_retired (s : State) : (commit s).retired = s.retired := rfl
@[simp] theorem commit_traceOut (s : State) : (commit s).traceOut = some (traceEntry s) := rfl

/-! ### `placeForFetch` -/

@[simp] theorem placeForFetch_regs (i : Instr) (s : State) : (placeForFetch i s).regs = s.regs := rfl
@[simp] theorem placeForFetch_pc (i : Instr) (s : State) :
    (placeForFetch i s).pc = if 0 ≤ s.pc then s.pc else 0 := rfl
@[simp] theorem placeForFetch_mem (i : Instr) (s : State) : (placeForFetch i s).mem = s.mem := rfl
@[simp] theorem placeForFetch_prog (i : Instr) (s : State) :
    (placeForFetch i s).prog = storeAt s.prog s.pc.toNat i := rfl
@[simp] theorem placeForFetch_cur (i : Instr) (s : State) :
    (placeForFetch i s).cur = { s.cur with idex := IdExLatch.invalid } := rfl
@[simp] theorem placeForFetch_nxt (i : Instr) (s : State) : (placeForFetch i s).nxt = s.nxt := rfl
@[simp] theorem placeForFetch_stage (i : Instr) (s : State) : (placeForFetch i s).stage = s.stage := rfl
@[simp] theorem placeForFetch_cycles (i : Instr) (s : State) : (placeForFetch i s).cycles = s.cycles := rfl
@[simp] theorem placeForFetch_retired (i : Instr) (s : State) :
    (placeForFetch i s).retired = s.retired := rfl
@[simp] theorem placeForFetch_traceOut (i : Instr) (s : State) :
    (placeForFetch i s).traceOut = s.traceOut := rfl

/-! ### `launch` -/

@[simp] theorem launch_regs (p : List Instr) (m : List (Word × Word)) (x : Vector Word 31) :
    (launch p m x).regs = initialRegs x := rfl
@[simp] theorem launch_pc (p : List Instr) (m : List (Word × Word)) (x : Vector Word 31) :
    (launch p m x).pc = 0 := rfl
@[simp] theorem launch_mem (p : List Instr) (m : List (Word × Word)) (x : Vector Word 31) :
    (launch p m x).mem = initialMemory m := rfl
@[simp] theorem launch_prog (p : List Instr) (m : List (Word × Word)) (x : Vector Word 31) :
    (launch p m x).prog = p := rfl
@[simp] theorem launch_cur (p : List Instr) (m : List (Word × Word)) (x : Vector Word 31) :
    (launch p m x).cur = Latches.empty := rfl
@[simp] theorem launch_nxt (p : List Instr) (m : List (Word × Word)) (x : Vector Word 31) :
    (launch p m x).nxt = Latches.empty := rfl
@[simp] theorem launch_stage (p : List Instr) (m : List (Word × Word)) (x : Vector Word 31) :
    (launch p m x).stage = .fetch := rfl
@[simp] theorem launch_cycles (p : List Instr) (m : List (Word × Word)) (x : Vector Word 31) :
    (launch p m x).cycles = 0 := rfl
@[simp] theorem launch_retired (p : List Instr) (m : List (Word × Word)) (x : Vector Word 31) :
    (launch p m x).retired = 0 := rfl
@[simp] theorem launch_traceOut (p : List Instr) (m : List (Word × Word)) (x : Vector Word 31) :
    (launch p m x).traceOut = none := rfl

end Sys2Proof.Machine
end

