-- ==== Sys2Proof/Laws/Meanings.lean ====
section
/-! SUPPORT. What an instruction's meaning can do in each step of a cycle, once for all instructions: each
lemma names the shared operation that the meaning comes to. -/

namespace Sys2Proof.Machine

/-- What an instruction does to the registers and to `retired` in Writeback. -/
def writebackEffect (i : Instr) (l : MemWbLatch) (s : State) : State :=
  match i.op with
  | .nop => retire s
  | .add => retire (writeBack i.rd l.alu s)
  | .sub => retire (writeBack i.rd l.alu s)
  | .lw => retire (writeBack i.rd l.ldata s)
  | .sw => retire s
  | .beq => retire s

/-- What an instruction does to the memory in the Memory step, and the load data it latches. -/
def memoryEffect (i : Instr) (s : State) : State :=
  match i.op with
  | .nop => memoryStage i 0#32 s
  | .add => memoryStage i 0#32 s
  | .sub => memoryStage i 0#32 s
  | .lw => memoryStage i (loadData s) s
  | .sw => memoryStage i 0#32 (storeData s)
  | .beq => memoryStage i 0#32 s

/-- In the Fetch step every instruction is latched the same way. -/
theorem exec_fetch (i : Instr) {s : State} (h : s.stage = .fetch) :
    exec i s = .next (fetchStage i s) := by
  cases i <;> simp [exec, execNop, execAdd, execSub, execLw, execSw, execBeq, h]

/-- In the Decode step every instruction reads both its source fields. -/
theorem exec_decode (i : Instr) {s : State} (h : s.stage = .decode) :
    exec i s = .next (decodeStage i s) := by
  cases i <;> simp [exec, execNop, execAdd, execSub, execLw, execSw, execBeq, h]

/-- In the Execute step every instruction latches the results of `exec(i, a, b)` (R113) on its forwarded
operands. -/
theorem exec_execute (i : Instr) {s : State} (h : s.stage = .execute) :
    exec i s = .next (executeStage i
      (execFunction i s.cur.idex.ins.idx (operandA i.ra s) (operandB i.rb s)) s) := by
  cases i with
  | beq rd ra rb imm =>
    by_cases he : operandA ra s = operandB rb s
    · simp [exec, execBeq, execFunction, h, he, Instr.op, Instr.ra, Instr.rb, Instr.imm,
        ExecResult.branch, wordsEqual, branchTarget]
    · have hw : wordsEqual (operandA ra s) (operandB rb s) = false := by simpa [wordsEqual] using he
      simp [exec, execBeq, execFunction, h, he, hw, Instr.op, Instr.ra, Instr.rb,
        ExecResult.branch]
  | nop => simp [exec, execNop, execFunction, h, Instr.op, ExecResult.value]
  | add => simp [exec, execAdd, execFunction, h, Instr.op, Instr.ra, Instr.rb, ExecResult.value]
  | sub => simp [exec, execSub, execFunction, h, Instr.op, Instr.ra, Instr.rb, ExecResult.value]
  | lw => simp [exec, execLw, execFunction, h, Instr.op, Instr.ra, Instr.rb, Instr.imm,
      ExecResult.access, effectiveAddress, sext32]
  | sw => simp [exec, execSw, execFunction, h, Instr.op, Instr.ra, Instr.rb, Instr.imm,
      ExecResult.access, effectiveAddress, sext32]

/-- In the Memory step. -/
theorem exec_memory (i : Instr) {s : State} (h : s.stage = .memory) :
    exec i s = .next (memoryEffect i s) := by
  cases i <;>
    simp [exec, execNop, execAdd, execSub, execLw, execSw, execBeq, memoryEffect, h, Instr.op]

/-- In the Writeback step. -/
theorem exec_writeback (i : Instr) {s : State} (h : s.stage = .writeback) :
    exec i s = .next (writebackEffect i s.cur.memwb s) := by
  cases i <;>
    simp [exec, execNop, execAdd, execSub, execLw, execSw, execBeq, writebackEffect, h, Instr.op, Instr.rd]

/-- Every meaning ends in a next state, in every step of a cycle. -/
theorem exec_next (i : Instr) (s : State) : ∃ t, exec i s = .next t := by
  cases h : s.stage with
  | fetch => exact ⟨_, exec_fetch i h⟩
  | decode => exact ⟨_, exec_decode i h⟩
  | execute => exact ⟨_, exec_execute i h⟩
  | memory => exact ⟨_, exec_memory i h⟩
  | writeback => exact ⟨_, exec_writeback i h⟩

end Sys2Proof.Machine
end

