-- ==== Sys2Proof/Laws/PerInstr.lean ====
section
/-! SUPPORT. Statements about every instruction as syntax, one lemma per constructor. -/

namespace Sys2Proof.Laws

/-- The encoded word carries the fixed bits of its own row of the opcode map (R80, R81). -/
def EncodesItsRow.Statement (i : Instr) : Prop :=
  encode i &&& (opcodeRow i.op).mask = (opcodeRow i.op).pattern

theorem EncodesItsRow.nop (rd ra rb : Reg) (imm : Imm) :
    EncodesItsRow.Statement (.nop rd ra rb imm) := by
  simp [EncodesItsRow.Statement, encode, opcodeRow, Instr.op]

theorem EncodesItsRow.add (rd ra rb : Reg) (imm : Imm) :
    EncodesItsRow.Statement (.add rd ra rb imm) := encodeR_fixedBits (.inl rfl) rd ra rb

theorem EncodesItsRow.sub (rd ra rb : Reg) (imm : Imm) :
    EncodesItsRow.Statement (.sub rd ra rb imm) := encodeR_fixedBits (.inr rfl) rd ra rb

theorem EncodesItsRow.lw (rd ra rb : Reg) (imm : Imm) :
    EncodesItsRow.Statement (.lw rd ra rb imm) := encodeI_fixedBits _ ra rd imm

theorem EncodesItsRow.sw (rd ra rb : Reg) (imm : Imm) :
    EncodesItsRow.Statement (.sw rd ra rb imm) := encodeI_fixedBits _ ra rb imm

theorem EncodesItsRow.beq (rd ra rb : Reg) (imm : Imm) :
    EncodesItsRow.Statement (.beq rd ra rb imm) := encodeI_fixedBits _ ra rb imm

end Sys2Proof.Laws
end

