-- ==== Sys2Proof/Laws/Phases.lean ====
section
/-! SUPPORT. What each of the five steps of a cycle does, in the terms of rule R123 (CycleRule.lean): one
lemma per step, with the fields that the step writes. -/

namespace Sys2Proof.Machine

@[simp] theorem andThen_next (s : State) (f : State → Host.Outcome State Fault Refusal) :
    andThen (.next s) f = f s := rfl

/-- The Writeback step writes the registers and `retired` of R123, and leaves a stage behind that nothing
reads. -/
theorem writebackPhase_eq (s : State) : ∃ st, writebackPhase s =
    .next { s with regs := ruleRegs s, retired := ruleRetired s, stage := st } := by
  by_cases hv : s.cur.memwb.valid = true
  · refine ⟨.writeback, ?_⟩
    simp only [writebackPhase, hv, if_true, execIn]
    rw [exec_writeback _ rfl]
    cases hi : s.cur.memwb.ins.ins <;>
      simp [writebackEffect, ruleRegs, ruleRetired, hv, hi, Instr.op, Instr.rd, writesReg, retire,
        writeBack] <;>
      (intro h0; rw [h0]; simp [writeReg])
  · refine ⟨s.stage, ?_⟩
    simp [writebackPhase, ruleRegs, ruleRetired, hv]

/-- The Memory step writes the memory and `MEMWB'` of R123. -/
theorem memoryPhase_eq (s : State) : ∃ st, memoryPhase s =
    .next { s with mem := ruleMem s, nxt := { s.nxt with memwb := ruleMemWb s }, stage := st } := by
  by_cases hv : s.cur.exmem.valid = true
  · refine ⟨.memory, ?_⟩
    simp only [memoryPhase, hv, if_true, execIn]
    rw [exec_memory _ rfl]
    cases hi : s.cur.exmem.ins with
    | mk i idx =>
      cases i <;>
        simp [memoryEffect, ruleMem, ruleMemWb, hv, hi, Instr.op, memoryStage, storeData, loadData]
  · refine ⟨s.stage, ?_⟩
    simp [memoryPhase, ruleMem, ruleMemWb, hv]

/-- The Execute step writes `EXMEM'` of R123. -/
theorem executePhase_eq (s : State) : ∃ st, executePhase s =
    .next { s with nxt := { s.nxt with exmem := ruleExMem s }, stage := st } := by
  by_cases hv : s.cur.idex.valid = true
  · refine ⟨.execute, ?_⟩
    simp only [executePhase, hv, if_true, execIn]
    rw [exec_execute _ rfl]
    simp [ruleExMem, hv, executeStage, operandA, operandB]
  · refine ⟨s.stage, ?_⟩
    simp [executePhase, ruleExMem, hv]

/-- The Decode step writes ID/EX: the operands are read from the registers as they stand in the step. -/
theorem decodePhase_eq (s : State) : ∃ st, decodePhase s = .next { s with
    nxt := { s.nxt with
      idex := if s.cur.ifid.valid && !stallSignal s && !takenSignal s then
        ⟨true, s.cur.ifid.ins, readReg s.regs s.cur.ifid.ins.ins.ra, readReg s.regs s.cur.ifid.ins.ins.rb⟩
        else IdExLatch.invalid }
    stage := st } := by
  by_cases hv : (s.cur.ifid.valid && !stallSignal s && !takenSignal s) = true
  · refine ⟨.decode, ?_⟩
    simp only [decodePhase, hv, if_true, execIn]
    rw [exec_decode _ rfl]
    simp [decodeStage]
  · refine ⟨s.stage, ?_⟩
    simp [decodePhase, hv]

/-- The Fetch step writes `pc` and IF/ID, by the first case of R119 that applies. -/
theorem fetchPhase_eq (s : State) : ∃ st, fetchPhase s = .next { s with
    pc := if takenSignal s then targetSignal s
      else if stallSignal s then s.pc
      else if 0 ≤ s.pc ∧ s.pc < s.prog.length then s.pc + 1 else s.pc
    nxt := { s.nxt with
      ifid := if takenSignal s then IfIdLatch.invalid
        else if stallSignal s then s.cur.ifid
        else match fetchAt s.prog s.pc with
          | some i => ⟨true, ⟨i, s.pc⟩⟩
          | none => IfIdLatch.invalid }
    stage := st } := by
  by_cases ht : takenSignal s = true
  · exact ⟨s.stage, by simp [fetchPhase, ht]⟩
  · by_cases hs : stallSignal s = true
    · exact ⟨s.stage, by simp [fetchPhase, ht, hs]⟩
    · cases hf : fetchAt s.prog s.pc with
      | none =>
        refine ⟨s.stage, ?_⟩
        have hr : ¬ (0 ≤ s.pc ∧ s.pc < s.prog.length) := by
          rintro ⟨h0, h1⟩
          simp only [fetchAt, h0, if_true, List.getElem?_eq_none_iff] at hf
          omega
        simp [fetchPhase, ht, hs, hf, hr]
      | some i =>
        refine ⟨.fetch, ?_⟩
        have hr : 0 ≤ s.pc ∧ s.pc < s.prog.length := by
          unfold fetchAt at hf
          split at hf
          · rename_i h0
            obtain ⟨hlt, -⟩ := List.getElem?_eq_some_iff.mp hf
            omega
          · cases hf
        simp only [fetchPhase, ht, hs, hf, execIn]
        rw [exec_fetch _ rfl]
        simp [fetchStage, hr]

end Sys2Proof.Machine
end

