-- ==== Sys2Proof/Tests/Slice0.lean ====
section
/-! SUPPORT. The implementer's own tests. Every expected value comes from spec/95_test_vectors.md (the
vector is named) or from the rule named; the second half shows, for every statement with hypotheses, a
state and operands that meet them, clause by clause. -/

namespace Sys2Proof.Tests

open Sys2Proof Sys2Proof.Machine Sys2Proof.Safety

/-! ### Small states -/

/-- The state that an outcome ends in, if it is a next state. -/
def after (o : Host.Outcome State Fault Refusal) : Option State :=
  match o with
  | .next s => some s
  | .fault _ => none
  | .refused _ => none

/-- Registers all 0 but one. -/
def oneReg (r : Reg) (v : Word) : Vector Word 32 := writeReg (Vector.replicate 32 0#32) r v

/-- A launch with REG_INIT zero. -/
def boot (prog : List Instr) (memInit : List (Word × Word)) : State :=
  launch prog memInit (Vector.replicate 31 0#32)

def inIfId (i : Instr) (k : Int) : IfIdLatch := { valid := true, ins := { ins := i, idx := k } }
def inIdEx (i : Instr) (k : Int) (a b : Word) : IdExLatch :=
  { valid := true, ins := { ins := i, idx := k }, a := a, b := b }
def inExMem (i : Instr) (alu sdata : Word) : ExMemLatch :=
  { valid := true, ins := { ins := i, idx := 0 }, alu := alu, sdata := sdata, taken := false, target := 0 }
def inMemWb (i : Instr) (alu ldata : Word) : MemWbLatch :=
  { valid := true, ins := { ins := i, idx := 0 }, alu := alu, ldata := ldata }

def nop : Instr := .nop 0#5 0#5 0#5 0#16
def add (rd ra rb : Reg) : Instr := .add rd ra rb 0#16
def sub (rd ra rb : Reg) : Instr := .sub rd ra rb 0#16
def lw (rd : Reg) (imm : Imm) (ra : Reg) : Instr := .lw rd ra 0#5 imm
def sw (rb : Reg) (imm : Imm) (ra : Reg) : Instr := .sw 0#5 ra rb imm
def beq (ra rb : Reg) (imm : Imm) : Instr := .beq 0#5 ra rb imm

/-- Three nops in the store, `pc` past the first, and one instruction in ID/EX, with a state's stage. -/
def executing (i : Instr) (k : Int) (a b : Word) : State :=
  { boot [nop, nop, nop] [] with
    pc := 1, stage := .execute, cur := { Latches.empty with idex := inIdEx i k a b } }

/-- One instruction in EX/MEM, in its Memory step. -/
def inMemory (i : Instr) (alu sdata : Word) (cells : List (Word × Word)) : State :=
  { boot [nop] cells with stage := .memory, cur := { Latches.empty with exmem := inExMem i alu sdata } }

/-- One instruction in MEM/WB, in its Writeback step. -/
def writing (i : Instr) (alu ldata : Word) : State :=
  { boot [nop] [] with stage := .writeback, cur := { Latches.empty with memwb := inMemWb i alu ldata } }

/-- What EX/MEM receives from the instruction in Execute: `(alu, sdata, taken, target)`. -/
def executed (i : Instr) (k : Int) (a b : Word) : Option (Word × Word × Bool × Int) :=
  (after (exec i (executing i k a b))).map fun s =>
    (s.nxt.exmem.alu, s.nxt.exmem.sdata, s.nxt.exmem.taken, s.nxt.exmem.target)

/-! ### WellFormed: an ill-formed term for each check -/

theorem test_nop_fields_refused :
    Instr.WellFormed (.nop 1#5 0#5 0#5 0#16) = false ∧ Instr.WellFormed (.nop 0#5 1#5 0#5 0#16) = false ∧
    Instr.WellFormed (.nop 0#5 0#5 1#5 0#16) = false ∧ Instr.WellFormed (.nop 0#5 0#5 0#5 1#16) = false := by
  decide
theorem test_add_immediate_refused : Instr.WellFormed (.add 1#5 2#5 3#5 1#16) = false := by decide
theorem test_sub_immediate_refused : Instr.WellFormed (.sub 1#5 2#5 3#5 0xFFFF#16) = false := by decide
theorem test_lw_rb_refused : Instr.WellFormed (.lw 1#5 0#5 3#5 0#16) = false := by decide
theorem test_sw_rd_refused : Instr.WellFormed (.sw 1#5 0#5 3#5 0#16) = false := by decide
theorem test_beq_rd_refused : Instr.WellFormed (.beq 31#5 0#5 3#5 0#16) = false := by decide
theorem test_canonical_records_accepted :
    nop.WellFormed ∧ (add 31#5 31#5 31#5).WellFormed ∧ (sub 1#5 2#5 3#5).WellFormed ∧
    (lw 31#5 0xFFFF#16 31#5).WellFormed ∧ (sw 5#5 0x7FFF#16 6#5).WellFormed ∧
    (beq 1#5 2#5 0x8000#16).WellFormed := by decide

/-- 95_test_vectors.md section 2.8: `rd = 32`, `imm = 32768` or an unknown operation is refused. -/
theorem test_raw_record_outside_the_contract :
    RawRecord.Accepted ⟨"add", 32, 0, 0, 0⟩ = false ∧ RawRecord.Accepted ⟨"add", 0, -1, 0, 0⟩ = false ∧
    RawRecord.Accepted ⟨"add", 0, 0, 32, 0⟩ = false ∧ RawRecord.Accepted ⟨"lw", 0, 0, 0, 32768⟩ = false ∧
    RawRecord.Accepted ⟨"lw", 0, 0, 0, -32769⟩ = false ∧ RawRecord.Accepted ⟨"mul", 0, 0, 0, 0⟩ = false ∧
    RawRecord.Accepted ⟨"lw", 31, 0, 31, -32768⟩ = true ∧ RawRecord.Accepted ⟨"sw", 0, 31, 0, 32767⟩ = true := by
  decide

/-! ### Decode and encode: words written out from 30_encoding.md section 2 -/

/-- V-ENC-1 and V-ENC-2: the all-zero word is nop; `000000 00000 00000 00000 00000 100000` is an add. -/
theorem test_decode_nop : decode 0b00000000000000000000000000000000#32 = .ok nop ∧
    decode 0b00000000000000000000000000100000#32 = .ok (add 0#5 0#5 0#5) := by decide
/-- R88: `add r3, r2, r2` is `000000 00010 00010 00011 00000 100000`; V-ENC-3. -/
theorem test_decode_add : decode 0b00000000010000100001100000100000#32 = .ok (add 3#5 2#5 2#5) ∧
    decode 0x03FFF820#32 = .ok (add 31#5 31#5 31#5) := by decide
/-- V-ENC-4: `sub r1, r2, r3` is `000000 00010 00011 00001 00000 100010`; R152's example. -/
theorem test_decode_sub : decode 0b00000000010000110000100000100010#32 = .ok (sub 1#5 2#5 3#5) ∧
    decode 0x00220822#32 = .ok (sub 1#5 1#5 2#5) := by decide
/-- V-ENC-5: `lw r31, -1(r31)` is `100011 11111 11111 1111111111111111`; R88's `lw r2, 0(r0)`. -/
theorem test_decode_lw : decode 0b10001111111111111111111111111111#32 = .ok (lw 31#5 0xFFFF#16 31#5) ∧
    decode 0x8C020000#32 = .ok (lw 2#5 0#16 0#5) := by decide
/-- V-ENC-6: `sw r5, 32767(r6)` is `101011 00110 00101 0111111111111111`; R88's `sw r3, 4(r0)`. -/
theorem test_decode_sw : decode 0b10101100110001010111111111111111#32 = .ok (sw 5#5 0x7FFF#16 6#5) ∧
    decode 0xAC030004#32 = .ok (sw 3#5 4#16 0#5) := by decide
/-- V-ENC-7: `beq r1, r2, -32768` is `000100 00001 00010 1000000000000000`; R88's `beq r0, r0, 2`. -/
theorem test_decode_beq : decode 0b00010000001000101000000000000000#32 = .ok (beq 1#5 2#5 0x8000#16) ∧
    decode 0x10000002#32 = .ok (beq 0#5 0#5 2#16) := by decide
/-- V-ENC-12 to V-ENC-18. -/
theorem test_decode_refuses : [0x00000001#32, 0x00000060#32, 0x04000000#32, 0x00200000#32,
    0xFFFFFFFF#32, 0x00000008#32, 0x00000824#32].all (fun w => decode w = .error (.unlistedWord w)) := by
  decide
/-- R88 and the programs of part 3. -/
theorem test_encode :
    encode (lw 2#5 0#16 0#5) = 0x8C020000#32 ∧ encode (add 3#5 2#5 2#5) = 0x00421820#32 ∧
    encode (sw 3#5 4#16 0#5) = 0xAC030004#32 ∧ encode (beq 0#5 0#5 2#16) = 0x10000002#32 ∧
    encode (sub 1#5 1#5 2#5) = 0x00220822#32 ∧ encode nop = 0x00000000#32 := by decide
/-- The opcode table's numbering is the word's own: bit 0 is the least significant bit. -/
theorem test_decode_table_word : decodeTableWord 32 0xAC210064 = some (sw 1#5 100#16 1#5) ∧
    decodeTableWord 32 0x00000060 = none := by decide

/-! ### One step of each instruction -/

/-- V-PIPE-1: a nop retires and computes 0. -/
theorem test_nop_retires : (after (exec nop (writing nop 0#32 0#32))).map State.retired = some 1 := by decide
theorem test_nop_computes_zero : executed nop 0 5#32 6#32 = some (0#32, 0#32, false, 0) := by decide
/-- V-ALU-E2: addition wraps. -/
theorem test_add_wraps :
    executed (add 3#5 1#5 2#5) 0 0x7FFFFFFF#32 1#32 = some (0x80000000#32, 0#32, false, 0) := by decide
/-- R102: a write to register 0 is suppressed, and one to register 31 is not. -/
theorem test_add_writes_back :
    (after (exec (add 0#5 1#5 2#5) (writing (add 0#5 1#5 2#5) 9#32 0#32))).map (fun s => readReg s.regs 0#5) =
      some 0#32 ∧
    (after (exec (add 31#5 1#5 2#5) (writing (add 31#5 1#5 2#5) 9#32 0#32))).map
      (fun s => (readReg s.regs 31#5, s.retired)) = some (9#32, 1) := by decide
/-- V-ALU-E6: the operand order. -/
theorem test_sub_order :
    executed (sub 3#5 1#5 2#5) 0 3#32 10#32 = some (0xFFFFFFF9#32, 0#32, false, 0) := by decide
/-- V-ALU-E8: subtraction wraps. -/
theorem test_sub_wraps :
    executed (sub 3#5 1#5 2#5) 0 0x80000000#32 1#32 = some (0x7FFFFFFF#32, 0#32, false, 0) := by decide
/-- V-EA-5: the displacement is sign-extended and the sum wraps. -/
theorem test_lw_address :
    (executed (lw 1#5 0xFFFF#16 2#5) 0 0x80000000#32 0#32).map Prod.fst = some 0x7FFFFFFF#32 := by decide
/-- R105: the word at the address, and 0 where nothing was written. -/
theorem test_lw_reads :
    (after (exec (lw 1#5 0#16 0#5) (inMemory (lw 1#5 0#16 0#5) 5#32 0#32 [(5#32, 77#32)]))).map
      (fun s => s.nxt.memwb.ldata) = some 77#32 ∧
    (after (exec (lw 1#5 0#16 0#5) (inMemory (lw 1#5 0#16 0#5) 4#32 0#32 [(5#32, 77#32)]))).map
      (fun s => s.nxt.memwb.ldata) = some 0#32 := by decide
/-- V-EA-6 and R113: the address and the captured store data. -/
theorem test_sw_address : executed (sw 5#5 0x8000#16 6#5) 0 0#32 7#32 =
    some (0xFFFF8000#32, 7#32, false, 0) := by decide
/-- V-LS-4 and V-LS-7: a store changes its own cell only; storing 0 leaves no entry. -/
theorem test_sw_stores :
    (after (exec (sw 1#5 3#16 0#5) (inMemory (sw 1#5 3#16 0#5) 3#32 11#32 [(4#32, 8#32), (2#32, 9#32)]))).map
      State.mem = some [(2, 9#32), (3, 11#32), (4, 8#32)] ∧
    (after (exec (sw 1#5 0#16 0#5) (inMemory (sw 1#5 0#16 0#5) 0#32 0#32 [(0#32, 6#32)]))).map
      State.mem = some [] := by decide
/-- V-BT-7 and V-BT-8: targets before and far behind the program. -/
theorem test_beq_taken :
    executed (beq 0#5 0#5 0xFFFB#16) 1 0#32 0#32 = some (0#32, 0#32, true, -3) ∧
    executed (beq 0#5 0#5 0x7FFF#16) 0 0#32 0#32 = some (0#32, 0#32, true, 32768) := by decide
/-- V-BT-11: unequal words. -/
theorem test_beq_not_taken :
    executed (beq 1#5 2#5 0#16) 3 0x80000000#32 0x7FFFFFFF#32 = some (0#32, 0#32, false, 0) := by decide

/-! ### Forwarding, the interlock and the cycle -/

/-- V-FWD-1 to V-FWD-3, V-FWD-5 and V-FWD-8. -/
theorem test_forward :
    forward { Latches.empty with exmem := inExMem (add 1#5 0#5 0#5) 30#32 0#32,
                                 memwb := inMemWb (add 1#5 0#5 0#5) 20#32 0#32 } 1#5 10#32 = 30#32 ∧
    forward { Latches.empty with exmem := inExMem (lw 1#5 0#16 0#5) 100#32 0#32 } 1#5 7#32 = 7#32 ∧
    forward { Latches.empty with memwb := inMemWb (lw 1#5 0#16 0#5) 100#32 42#32 } 1#5 7#32 = 42#32 ∧
    forward { Latches.empty with exmem := inExMem (add 0#5 0#5 0#5) 5#32 0#32 } 0#5 0#32 = 0#32 ∧
    forward { Latches.empty with exmem := inExMem (lw 1#5 0#16 0#5) 4#32 0#32,
                                 memwb := inMemWb (add 1#5 0#5 0#5) 9#32 0#32 } 1#5 7#32 = 9#32 := by decide
/-- V-ST-1 to V-ST-6. -/
theorem test_stalls : ∀ j ∈ [add 1#5 3#5 0#5, add 1#5 0#5 3#5, lw 1#5 0#16 3#5, sw 3#5 0#16 0#5,
    sw 1#5 0#16 3#5, beq 0#5 3#5 1#16], loadUse (inIfId j 1) (inIdEx (lw 3#5 0#16 0#5) 0 0#32 0#32) = true := by
  decide
/-- V-ST-7, V-ST-8, V-ST-13, V-ST-9 and V-ST-10. -/
theorem test_does_not_stall :
    (∀ j ∈ [add 3#5 1#5 2#5, nop, .lw 1#5 0#5 3#5 0#16],
      loadUse (inIfId j 1) (inIdEx (lw 3#5 0#16 0#5) 0 0#32 0#32) = false) ∧
    loadUse (inIfId (add 1#5 0#5 0#5) 1) (inIdEx (lw 0#5 0#16 0#5) 0 0#32 0#32) = false ∧
    loadUse (inIfId (add 1#5 3#5 3#5) 1) (inIdEx (add 3#5 1#5 2#5) 0 0#32 0#32) = false := by decide

/-- EX-1 after cycle 2: the lw in ID/EX and the add that needs it in IF/ID. -/
def beforeStall : State :=
  { boot [lw 2#5 0#16 0#5, add 3#5 2#5 2#5, sw 3#5 4#16 0#5] [(0#32, 7#32)] with
    pc := 2, cycles := 2
    cur := { Latches.empty with ifid := inIfId (add 3#5 2#5 2#5) 1, idex := inIdEx (lw 2#5 0#16 0#5) 0 0#32 0#32 } }

/-- EX-1, cycle 3: one stall. -/
theorem test_stall_cycle : (after (step beforeStall)).bind State.traceOut = some
    { cycle := 3, ifid := some ⟨add 3#5 2#5 2#5, 1⟩, idex := none, exmem := some ⟨lw 2#5 0#16 0#5, 0⟩,
      memwb := none, stall := true, taken := false, target := 0 } := by decide

/-- EX-2 after cycle 2: the beq in ID/EX and the wrong-path lw in IF/ID. -/
def beforeTaken : State :=
  { boot [beq 0#5 0#5 2#16, lw 1#5 0#16 0#5, lw 2#5 0#16 0#5, lw 3#5 0#16 0#5] [(0#32, 9#32)] with
    pc := 2, cycles := 2
    cur := { Latches.empty with ifid := inIfId (lw 1#5 0#16 0#5) 1, idex := inIdEx (beq 0#5 0#5 2#16) 0 0#32 0#32 } }

/-- EX-2, cycle 3: the branch is taken to 3. -/
theorem test_taken_cycle : (after (step beforeTaken)).map (fun s => (s.pc, s.traceOut)) = some (3, some
    { cycle := 3, ifid := none, idex := none, exmem := some ⟨beq 0#5 0#5 2#16, 0⟩,
      memwb := none, stall := false, taken := true, target := 3 }) := by decide

/-- V-RST-2: with N = 0 no cycle runs. -/
theorem test_empty_program : done State.reset = true ∧
    (run 5 State.reset).map (fun p => (p.1.cycles, p.1.cpi, p.2)) = some (0, 0, []) := by decide
/-- V-RST-4: REG_INIT is read (`add r1, r5, r5` with r5 = 12), in its Decode. -/
theorem test_reg_init :
    readReg (launch [add 1#5 5#5 5#5] [] ((Vector.replicate 31 0#32).set 4 12#32)).regs 5#5 = 12#32 := by decide
/-- V-ENC-19: the whole program is refused. -/
theorem test_program_refused : launchWords [0x8C010000#32, 0x00000001#32] [] (Vector.replicate 31 0#32) =
    .refused (.unlistedWord 1) := by rfl
/-- The word placed where the first cycle fetches is fetched by it. -/
theorem test_fetch_word : (after (step (State.reset.withFetchWord 32 0x00421820))).map
    (fun s => (s.cur.ifid, s.pc)) = some (inIfId (add 3#5 2#5 2#5) 0, 1) := by decide

/-! ### The hypotheses of the statements can be met

Each theorem below bears the name of its statement and meets its hypotheses at a concrete state and
operands, clause by clause, with the bounds of the ranges among them. -/

/-- A state of the first cycle of a one-instruction program, with a given stage. -/
def staged (st : Stage) : State := { boot [nop] [] with stage := st }

/-- A full pipeline over five nops: from MEM/WB back to IF/ID. -/
def pipe (w x e d : Instr) (pc : Int) : State :=
  { boot [nop, nop, nop, nop, nop] [(8#32, 6#32)] with
    pc := pc
    cur := { ifid := inIfId d 3, idex := inIdEx e 2 5#32 5#32, exmem := inExMem x 8#32 9#32,
             memwb := inMemWb w 10#32 11#32 } }

/-- Nothing in flight, at a given `pc` of a two-instruction program. -/
def idle (pc : Int) : State := { boot [nop, nop] [] with pc := pc }

/-- EX-1 after cycle 5: the sw in ID/EX read a stale r3, and the add that writes r3 is in EX/MEM. -/
def beforeForward : State :=
  { boot [lw 2#5 0#16 0#5, add 3#5 2#5 2#5, sw 3#5 4#16 0#5] [(0#32, 7#32)] with
    regs := oneReg 2#5 7#32, pc := 3, cycles := 5, retired := 1
    cur := { Latches.empty with
      idex := inIdEx (sw 3#5 4#16 0#5) 2 0#32 0#32, exmem := inExMem (add 3#5 2#5 2#5) 14#32 0#32 } }

theorem witness_EncodeAndDecodeAreInverse :
    (beq 31#5 31#5 0x8000#16).WellFormed = true ∧ (lw 31#5 0x7FFF#16 0#5).WellFormed = true ∧
    decode 0x03FFF822#32 = .ok (sub 31#5 31#5 31#5) := by decide

/-- The least and the greatest word of each line, words just outside, and a program with a refused word. -/
theorem witness_DecodeFollowsEachLineOfTheTable :
    (0x00000020#32 &&& 0xFC0007FF#32 = 0x00000020#32 ∧ 0x03FFF820#32 &&& 0xFC0007FF#32 = 0x00000020#32) ∧
    (0x00000022#32 &&& 0xFC0007FF#32 = 0x00000022#32 ∧ 0x03FFF822#32 &&& 0xFC0007FF#32 = 0x00000022#32) ∧
    (0x8C000000#32 &&& 0xFC000000#32 = 0x8C000000#32 ∧ 0x8FFFFFFF#32 &&& 0xFC000000#32 = 0x8C000000#32) ∧
    (0xAC000000#32 &&& 0xFC000000#32 = 0xAC000000#32 ∧ 0xAFFFFFFF#32 &&& 0xFC000000#32 = 0xAC000000#32) ∧
    (0x10000000#32 &&& 0xFC000000#32 = 0x10000000#32 ∧ 0x13FFFFFF#32 &&& 0xFC000000#32 = 0x10000000#32) ∧
    [0x00000001#32, 0x00000060#32, 0x8BFFFFFF#32, 0x14000000#32].all (fun w =>
      w ≠ 0x00000000#32 ∧ w &&& 0xFC0007FF#32 ≠ 0x00000020#32 ∧ w &&& 0xFC0007FF#32 ≠ 0x00000022#32 ∧
      w &&& 0xFC000000#32 ≠ 0x8C000000#32 ∧ w &&& 0xFC000000#32 ≠ 0xAC000000#32 ∧
      w &&& 0xFC000000#32 ≠ 0x10000000#32) = true ∧
    (∃ w ∈ [0x8C010000#32, 0x00000001#32], ∃ e, decode w = .error e) := by
  refine ⟨by decide, by decide, by decide, by decide, by decide, by decide, 0x00000001#32, by simp, ?_⟩
  exact ⟨.unlistedWord 0x00000001#32, by decide⟩

/-- The lowest and the highest address are listed, their neighbours are not. -/
theorem witness_LaunchFollowsTheResetTable :
    let cells : List (Word × Word) := [(0#32, 7#32), (0xFFFFFFFF#32, 5#32), (4#32, 0#32)]
    (cells.map Prod.fst).Nodup ∧ (0xFFFFFFFF#32, 5#32) ∈ cells ∧ 1#32 ∉ cells.map Prod.fst ∧
    0xFFFFFFFE#32 ∉ cells.map Prod.fst := by decide

/-- The condition of LaunchAcceptsExactlyTheContract on one record. -/
def fits (r : RawRecord) : Bool := decide (
  (r.op = "nop" ∨ r.op = "add" ∨ r.op = "sub" ∨ r.op = "lw" ∨ r.op = "sw" ∨ r.op = "beq") ∧
  (0 ≤ r.rd ∧ r.rd ≤ 31) ∧ (0 ≤ r.ra ∧ r.ra ≤ 31) ∧ (0 ≤ r.rb ∧ r.rb ≤ 31) ∧
  (-32768 ≤ r.imm ∧ r.imm ≤ 32767))

/-- An accepted program with every field at a bound, and one record for each reason to refuse. -/
theorem witness_LaunchAcceptsExactlyTheContract :
    ([⟨"lw", 31, 0, 0, -32768⟩, ⟨"beq", 0, 31, 31, 32767⟩] : List RawRecord).all fits = true ∧
    fits ⟨"mul", 0, 0, 0, 0⟩ = false ∧ fits ⟨"add", 32, 0, 0, 0⟩ = false ∧ fits ⟨"add", 0, -1, 0, 0⟩ = false ∧
    fits ⟨"lw", 0, 0, 0, 32768⟩ = false ∧ fits ⟨"lw", 0, 0, 0, -32769⟩ = false := by decide

theorem witness_NopCompletesInEveryStage :
    ∀ st ∈ [Stage.fetch, .decode, .execute, .memory, .writeback], (staged st).stage = st := by decide

/-- Every stage, with `rd` at 0, 1 and 31. -/
theorem witness_AddCompletesInEveryStage :
    (∀ st ∈ [Stage.fetch, .decode, .execute, .memory, .writeback], (staged st).stage = st) ∧
    (0 : Reg) = 0#5 ∧ 1#5 ≠ 0#5 ∧ 31#5 ≠ 0#5 := by decide

theorem witness_SubCompletesInEveryStage :
    (∀ st ∈ [Stage.fetch, .decode, .execute, .memory, .writeback], (staged st).stage = st) ∧
    (0 : Reg) = 0#5 ∧ 1#5 ≠ 0#5 ∧ 31#5 ≠ 0#5 := by decide

theorem witness_LwCompletesInEveryStage :
    (∀ st ∈ [Stage.fetch, .decode, .execute, .memory, .writeback], (staged st).stage = st) ∧
    (0 : Reg) = 0#5 ∧ 1#5 ≠ 0#5 ∧ 31#5 ≠ 0#5 := by decide

theorem witness_SwCompletesInEveryStage :
    ∀ st ∈ [Stage.fetch, .decode, .execute, .memory, .writeback], (staged st).stage = st := by decide

/-- Every stage; in Execute both an equal and an unequal pair of operands. -/
theorem witness_BeqCompletesInEveryStage :
    (∀ st ∈ [Stage.fetch, .decode, .execute, .memory, .writeback], (staged st).stage = st) ∧
    (let s := executing (beq 1#5 2#5 0#16) 0 4#32 4#32
     s.stage = .execute ∧ forward s.cur 1#5 s.cur.idex.a = forward s.cur 2#5 s.cur.idex.b) ∧
    (let s := executing (beq 1#5 2#5 0#16) 0 0x80000000#32 0x7FFFFFFF#32
     s.stage = .execute ∧ forward s.cur 1#5 s.cur.idex.a ≠ forward s.cur 2#5 s.cur.idex.b) := by decide

/-- In every stage each of the three answers a next state; `q` is at `rd`, at 0 and elsewhere. -/
theorem witness_FrameOfAddSubAndLw :
    (∀ st ∈ [Stage.fetch, .decode, .execute, .memory, .writeback],
      ∀ i ∈ [add 31#5 1#5 2#5, sub 31#5 1#5 2#5, lw 31#5 0#16 1#5], (after (exec i (staged st))).isSome) ∧
    30#5 ≠ 31#5 ∧ Stage.fetch ≠ .writeback ∧ Stage.writeback ≠ .fetch := by decide

theorem witness_FrameOfNopAndBeq :
    ∀ st ∈ [Stage.fetch, .decode, .execute, .memory, .writeback],
      ∀ i ∈ [nop, beq 1#5 2#5 0#16], (after (exec i (staged st))).isSome := by decide

/-- In every stage; in the Memory step an address next to the stored one, and the stored one elsewhere. -/
theorem witness_FrameOfSw :
    (∀ st ∈ [Stage.fetch, .decode, .execute, .memory, .writeback],
      (after (exec (sw 1#5 0#16 2#5) (staged st))).isSome) ∧
    (let s := inMemory (sw 1#5 0#16 2#5) 0xFFFFFFFF#32 3#32 []
     s.stage = .memory ∧ 0#32 ≠ s.cur.exmem.alu ∧ 0xFFFFFFFE#32 ≠ s.cur.exmem.alu) ∧
    Stage.execute ≠ .memory := by decide

/-- A full pipeline that fetches at the last instruction and one that is past it, an empty one, one that
stalls and one that takes a branch. -/
theorem witness_StepRunsTheInstructionOfEveryStage :
    (let s := pipe nop nop nop nop 4
     done s = false ∧ s.cur.memwb.valid ∧ s.cur.exmem.valid ∧ s.cur.idex.valid ∧ s.cur.ifid.valid ∧
     stallSignal s = false ∧ takenSignal s = false ∧ fetchAt s.prog s.pc = some nop) ∧
    (done (pipe nop nop nop nop 5) = false ∧ fetchAt (pipe nop nop nop nop 5).prog 5 = none ∧
     fetchAt (pipe nop nop nop nop 5).prog (-1) = none) ∧
    (let s := idle 0
     done s = false ∧ s.cur.memwb.valid = false ∧ s.cur.exmem.valid = false ∧ s.cur.idex.valid = false ∧
     s.cur.ifid.valid = false) ∧
    (done beforeStall = false ∧ stallSignal beforeStall = true) ∧
    done beforeTaken = false ∧
    ((after (executePhase beforeTaken)).map takenSignal = some true) := by decide

theorem witness_StepRunsTheDecodedInstruction :
    decode 0x00000000#32 = .ok nop ∧ decode 0x03FFF820#32 = .ok (add 31#5 31#5 31#5) ∧
    decode 0x00220822#32 = .ok (sub 1#5 1#5 2#5) ∧ decode 0x8FFFFFFF#32 = .ok (lw 31#5 0xFFFF#16 31#5) ∧
    decode 0xACC57FFF#32 = .ok (sw 5#5 0x7FFF#16 6#5) ∧
    decode 0x10228000#32 = .ok (beq 1#5 2#5 0x8000#16) := by decide

/-- MEM/WB with each kind of instruction, with `rd` at 0, 1 and 31, and empty. -/
theorem witness_WritebackStepFollowsItsRules :
    (∀ i ∈ [nop, add 31#5 0#5 0#5, sub 1#5 0#5 0#5, lw 31#5 0#16 0#5, lw 0#5 0#16 0#5, sw 1#5 0#16 0#5,
      beq 0#5 0#5 0#16], done (pipe i nop nop nop 4) = false ∧ (pipe i nop nop nop 4).cur.memwb.valid) ∧
    (lw 31#5 0#16 0#5).rd ≠ 0#5 ∧ (lw 0#5 0#16 0#5).rd = 0#5 ∧
    done (idle 1) = false ∧ (idle 1).cur.memwb.valid = false := by decide

theorem witness_MemoryStepFollowsItsRules :
    (∀ i ∈ [nop, add 1#5 0#5 0#5, lw 1#5 0#16 0#5, sw 1#5 0#16 0#5], done (pipe nop i nop nop 4) = false ∧
      (pipe nop i nop nop 4).cur.exmem.valid ∧ (pipe nop i nop nop 4).cur.exmem.ins.ins = i) ∧
    done (idle 1) = false ∧ (idle 1).cur.exmem.valid = false := by decide

/-- ID/EX with each operation, a beq on equal and on unequal operands, and empty. -/
theorem witness_ExecuteStepFollowsItsRules :
    (∀ i ∈ [nop, add 1#5 2#5 3#5, sub 1#5 2#5 3#5, lw 1#5 0#16 2#5, sw 1#5 0#16 2#5, beq 2#5 3#5 0#16],
      done (pipe nop nop i nop 4) = false ∧ (pipe nop nop i nop 4).cur.idex.valid ∧
      (pipe nop nop i nop 4).cur.idex.ins.ins = i) ∧
    (let s := pipe nop nop (beq 2#5 3#5 0#16) nop 4
     forward s.cur 2#5 s.cur.idex.a = forward s.cur 3#5 s.cur.idex.b) ∧
    (let s := pipe nop (add 2#5 0#5 0#5) (beq 2#5 3#5 0#16) nop 4
     forward s.cur 2#5 s.cur.idex.a ≠ forward s.cur 3#5 s.cur.idex.b) ∧
    done (idle 1) = false ∧ (idle 1).cur.idex.valid = false := by decide

/-- V-FWD-1 (EX/MEM), V-FWD-3 (MEM/WB, lw), V-FWD-4 (MEM/WB, sub), V-FWD-5 (register 0). -/
theorem witness_ForwardingFollowsItsRules :
    (let l : Latches := { Latches.empty with exmem := inExMem (add 31#5 0#5 0#5) 30#32 0#32 }
     l.exmem.valid = true ∧ l.exmem.ins.ins.op = .add ∧ l.exmem.ins.ins.rd ≠ 0#5 ∧
       l.exmem.ins.ins.rd = 31#5) ∧
    (let l : Latches := { Latches.empty with memwb := inMemWb (lw 1#5 0#16 0#5) 100#32 42#32 }
     l.exmem.valid = false ∧ l.memwb.valid = true ∧ l.memwb.ins.ins.op = .lw ∧
       l.memwb.ins.ins.rd ≠ 0#5 ∧ l.memwb.ins.ins.rd = 1#5) ∧
    (let l : Latches := { Latches.empty with memwb := inMemWb (sub 1#5 0#5 0#5) 0xFFFFFFFD#32 0#32 }
     l.exmem.valid = false ∧ l.memwb.valid = true ∧ l.memwb.ins.ins.op = .sub ∧
       l.memwb.ins.ins.rd = 1#5) ∧
    (let l : Latches := { Latches.empty with exmem := inExMem (add 0#5 0#5 0#5) 5#32 0#32 }
     l.exmem.ins.ins.rd = 0#5 ∧ l.memwb.valid = false) := by decide

theorem witness_LoadUseStallFollowsItsRule :
    done beforeStall = false ∧ stallSignal beforeStall = true ∧
    done beforeTaken = false ∧ stallSignal beforeTaken = false := by decide

/-- Decode: a plain one, an empty IF/ID, a stall, and a squash. -/
theorem witness_DecodeStepFollowsItsRules :
    (done (pipe nop nop nop nop 4) = false ∧ (pipe nop nop nop nop 4).cur.ifid.valid ∧
      ((after (step (pipe nop nop nop nop 4))).bind State.traceOut).map (fun e => (e.stall, e.taken)) =
        some (false, false)) ∧
    (done (idle 0) = false ∧ (idle 0).cur.ifid.valid = false) ∧
    (((after (step beforeStall)).bind State.traceOut).map TraceEntry.stall = some true) ∧
    (((after (step beforeTaken)).bind State.traceOut).map TraceEntry.taken = some true) := by decide

/-- Fetch: at the first and the last index, at N, and at -1 with an instruction still in flight. -/
theorem witness_FetchStepFollowsItsRules :
    (done (idle 0) = false ∧ (0 : Int) ≤ (idle 0).pc ∧ (idle 0).pc.toNat < (idle 0).prog.length) ∧
    (done (idle 1) = false ∧ (0 : Int) ≤ (idle 1).pc ∧ (idle 1).pc.toNat < (idle 1).prog.length) ∧
    (done (pipe nop nop nop nop 5) = false ∧
      ((pipe nop nop nop nop 5).prog.length : Int) ≤ (pipe nop nop nop nop 5).pc) ∧
    (done (pipe nop nop nop nop (-1)) = false ∧ (pipe nop nop nop nop (-1)).pc < 0) ∧
    (∀ s ∈ [idle 0, idle 1, pipe nop nop nop nop 5, pipe nop nop nop nop (-1)],
      ((after (step s)).bind State.traceOut).map (fun e => (e.stall, e.taken)) = some (false, false)) ∧
    (((after (step beforeStall)).bind State.traceOut).map TraceEntry.stall = some true) ∧
    (((after (step beforeTaken)).bind State.traceOut).map TraceEntry.taken = some true) := by decide

theorem witness_CycleAgreesWithTheStepRule : done (idle 0) = false ∧ done beforeForward = false := by decide

theorem witness_EveryCycleEmitsItsTraceEntry : done beforeTaken = false ∧ done beforeStall = false := by decide

/-- `done` at the two sides of both ends of the program, and with each latch in the way. -/
theorem witness_DoneEndsTheRun :
    done (idle (-1)) = true ∧ done (idle 0) = false ∧ done (idle 1) = false ∧ done (idle 2) = true ∧
    done { idle 2 with cur := { Latches.empty with ifid := inIfId nop 1 } } = false ∧
    done { idle 2 with cur := { Latches.empty with idex := inIdEx nop 1 0#32 0#32 } } = false ∧
    done { idle 2 with cur := { Latches.empty with exmem := inExMem nop 0#32 0#32 } } = false ∧
    done { idle 2 with cur := { Latches.empty with memwb := inMemWb nop 0#32 0#32 } } = false := by decide

/-- After no step and after one, the run of a one-instruction program is not over; the empty one is. -/
theorem witness_CyclesCountFromReset :
    done (boot [nop] []) = false ∧ (after (steps 1 (boot [nop] []))).map done = some false ∧
    (after (steps 1 (boot [nop] []))).map State.cycles = some 1 ∧ done (boot [] []) = true := by decide

theorem witness_ProgramStoreIsImmutable :
    (after (exec (sw 1#5 0#16 0#5) (staged .memory))).isSome ∧ (after (step beforeForward)).isSome := by decide

theorem witness_ResultsReportTheState : (boot [nop] []).retired = 0 ∧ beforeForward.retired ≠ 0 := by decide

/-- V-RST-2 and V-PIPE-2: the run of no instruction and the run of one. -/
theorem witness_RunReportsOneEntryPerCycle :
    (run 0 (boot [nop] [])).isNone ∧ (run 0 (boot [] [])).isSome ∧
    (run 6 (boot [add 1#5 0#5 0#5] [])).map (fun p => (p.1.cycles, p.1.retired, p.2.length)) =
      some (5, 1, 5) := by decide

theorem witness_ArithmeticReachesItsRegister :
    (let s := executing (add 31#5 1#5 2#5) 0 0x7FFFFFFF#32 1#32
     s.cur.idex.valid = true ∧ s.cur.idex.ins.ins = .add 31#5 1#5 2#5 0#16 ∧ 31#5 ≠ 0#5 ∧ 0#5 ≠ 31#5) ∧
    (let s := executing (sub 1#5 1#5 2#5) 0 0x80000000#32 1#32
     s.cur.idex.valid = true ∧ s.cur.idex.ins.ins = .sub 1#5 1#5 2#5 0#16 ∧ 2#5 ≠ 1#5) := by decide

theorem witness_LoadReachesItsRegister :
    (let s := executing (lw 1#5 0x8000#16 2#5) 0 0#32 0#32
     s.cur.idex.valid = true ∧ s.cur.idex.ins.ins = .lw 1#5 2#5 0#5 0x8000#16) ∧ 1#5 ≠ 0#5 ∧ 0#5 ≠ 1#5 := by
  decide

theorem witness_StoreReachesItsCell :
    beforeForward.mem.wf = true ∧ beforeForward.cur.idex.valid = true ∧
    beforeForward.cur.idex.ins.ins = .sw 0#5 0#5 3#5 4#16 ∧ 3#32 ≠ 4#32 := by decide

/-- Equal operands with an instruction in IF/ID; unequal ones with and without one, at `pc` 1, 3 and 4. -/
theorem witness_BranchRedirectsAndSquashes :
    (beforeTaken.cur.idex.valid = true ∧ beforeTaken.cur.idex.ins.ins = .beq 0#5 0#5 0#5 2#16 ∧
      operandA 0#5 beforeTaken = operandB 0#5 beforeTaken) ∧
    (let s := executing (beq 1#5 2#5 0#16) 0 1#32 2#32
     s.cur.idex.valid = true ∧ operandA 1#5 s ≠ operandB 2#5 s ∧ s.cur.ifid.valid = false ∧
       0 ≤ s.pc ∧ s.pc < s.prog.length) ∧
    (let s := pipe nop (add 2#5 0#5 0#5) (beq 2#5 3#5 0#16) nop 5
     s.cur.idex.valid = true ∧ operandA 2#5 s ≠ operandB 3#5 s ∧ s.cur.ifid.valid = true ∧
       ¬ (0 ≤ s.pc ∧ s.pc < s.prog.length)) := by decide

/-- `sw` of 9 to address 8 in EX/MEM, and a `lw` from base 5 + 3 in ID/EX. -/
theorem witness_LoadSeesTheStoreBeforeIt :
    let s := pipe nop (sw 1#5 0#16 0#5) (lw 1#5 3#16 2#5) nop 4
    s.mem.wf = true ∧ s.cur.exmem.valid = true ∧ s.cur.exmem.ins.ins.op = .sw ∧ s.cur.idex.valid = true ∧
    s.cur.idex.ins.ins = .lw 1#5 2#5 0#5 3#16 ∧ effectiveAddress (operandA 2#5 s) 3#16 = s.cur.exmem.alu ∧
    1#5 ≠ 0#5 := by decide

/-- The greatest target below the program, -1, and the least behind it, N = 3. -/
theorem witness_BranchOutOfTheProgramEndsTheRun :
    (let s := executing (beq 0#5 0#5 0xFFFE#16) 0 0#32 0#32
     s.cur.idex.valid = true ∧ operandA 0#5 s = operandB 0#5 s ∧
       s.cur.idex.ins.idx + 1 + (0xFFFE#16).toInt < 0) ∧
    (let s := executing (beq 0#5 0#5 2#16) 0 0#32 0#32
     s.cur.idex.valid = true ∧ operandA 0#5 s = operandB 0#5 s ∧
       (s.prog.length : Int) ≤ s.cur.idex.ins.idx + 1 + (2#16).toInt) := by decide

theorem witness_StepKeepsRegisterZero : beforeForward.regs[0] = 0#32 ∧ (after (step beforeForward)).isSome := by
  decide

theorem witness_StepKeepsTheMemoryCanonical :
    (let s := pipe nop (sw 1#5 0#16 0#5) nop nop 4
     s.mem.wf = true ∧ (after (step s)).isSome) ∧ Memory.wf [(0, 1#32), (0xFFFFFFFF, 2#32)] = true := by decide

theorem witness_StepKeepsTheFormOfTheLatches :
    Bubbled beforeForward.cur ∧ UndefinedFieldsZero beforeForward.cur ∧ Settled beforeForward ∧
    (after (step beforeForward)).isSome := by
  unfold Bubbled UndefinedFieldsZero Settled; decide

theorem coherent_beforeForward : Coherent beforeForward := by
  unfold Coherent FromProgram InProgramOrder OperandsCurrent; decide

theorem coherent_beforeStall : Coherent beforeStall := by
  unfold Coherent FromProgram InProgramOrder OperandsCurrent; decide

theorem witness_StepKeepsThePipelineCoherent :
    (Coherent beforeForward ∧ (after (step beforeForward)).isSome) ∧
    (Coherent beforeStall ∧ (after (step beforeStall)).isSome) :=
  ⟨⟨coherent_beforeForward, by decide⟩, coherent_beforeStall, by decide⟩

theorem witness_CanonicalMemoriesAreTheirFunction :
    let m : Memory := [(0, 1#32), (0xFFFFFFFF, 2#32)]
    m.wf = true ∧ ∀ a : Word, memRead m a = memRead m a := ⟨by decide, fun _ => rfl⟩

/-- With an instruction in ID/EX, and without one. -/
theorem witness_CycleExecutesOneInstructionInOrder :
    (Coherent beforeForward ∧ beforeForward.cur.idex.valid = true ∧ (after (step beforeForward)).isSome) ∧
    (Coherent (idle 0) ∧ (idle 0).cur.idex.valid = false ∧ (after (step (idle 0))).isSome) :=
  ⟨⟨coherent_beforeForward, by decide⟩, by unfold Coherent FromProgram InProgramOrder OperandsCurrent; decide,
    by decide⟩

theorem witness_RunsComputeTheSequentialResult :
    (after (steps 5 (boot [add 1#5 0#5 0#5] []))).map done = some true := by decide

/-- `beforeForward` with other values in unused fields: the `rd` of the sw, the `imm` of the add, and what
the empty IF/ID holds. -/
def unusedChanged : State :=
  { beforeForward with
    prog := [lw 2#5 0#16 0#5, .add 3#5 2#5 2#5 9#16, .sw 31#5 0#5 3#5 4#16]
    cur := { beforeForward.cur with
      ifid := { valid := false, ins := { ins := beq 1#5 1#5 1#16, idx := 7 } }
      idex := inIdEx (.sw 31#5 0#5 3#5 4#16) 2 0#32 0#32
      exmem := inExMem (.add 3#5 2#5 2#5 9#16) 14#32 0#32 } }

theorem witness_UnusedFieldsHaveNoEffect :
    SameUseState beforeForward unusedChanged ∧ beforeForward ≠ unusedChanged ∧
    decode 0x8C020000#32 = .ok (lw 2#5 0#16 0#5) := by
  refine ⟨⟨rfl, rfl, rfl, rfl, rfl, ?_, ?_, trivial⟩, by decide, by decide⟩
  · refine .cons ?_ (.cons ?_ (.cons ?_ .nil)) <;> unfold SameUse <;> decide
  · refine ⟨⟨rfl, ?_⟩, ⟨rfl, ?_⟩, ⟨rfl, ?_⟩, ⟨rfl, ?_⟩⟩ <;> unfold SameUseRecord SameUse <;> decide

/-- One instruction; and a program with a load-use pair, whose run takes 2 + 4 + 1 cycles (V-PIPE-4). -/
theorem witness_BranchFreeProgramsTakeTheirCycles :
    [nop] ≠ [] ∧ (∀ i ∈ [lw 1#5 0#16 0#5, add 2#5 1#5 1#5], i.op ≠ .beq) ∧
    [lw 1#5 0#16 0#5, add 2#5 1#5 1#5].length + 4 + loadUsePairs [lw 1#5 0#16 0#5, add 2#5 1#5 1#5] = 7 := by
  decide

end Sys2Proof.Tests
end

section
/-! SUPPORT. One cycle and one step of the machine as rule R123 gives them: the equation of a cycle, and the
two things that a step can do. Every invariant of a step is derived from these. -/

namespace Sys2Proof.Machine

/-- One cycle is rule R123 from every state, finished or not: each of the five steps leaves what the later
ones read as the rule reads it. -/
theorem cycle_eq_ruleStep (s : State) : cycle s = .next (ruleStep s) := by
  unfold cycle olderSteps
  obtain ⟨_, hwriteback⟩ := writebackPhase_eq s
  rw [hwriteback, andThen_next]
  obtain ⟨_, hmemory⟩ := memoryPhase_eq _
  rw [hmemory, andThen_next]
  obtain ⟨_, hexecute⟩ := executePhase_eq _
  rw [hexecute, andThen_next]
  obtain ⟨_, hdecode⟩ := decodePhase_eq _
  rw [hdecode, andThen_next]
  obtain ⟨_, hfetch⟩ := fetchPhase_eq _
  rw [hfetch, andThen_next]
  rfl

/-- A step of a finished run answers the same state (R124). -/
theorem step_of_done {s : State} (h : done s = true) : step s = .next s := by simp [step, h]

/-- A step of a run that is not over is one cycle (R123). -/
theorem step_of_not_done {s : State} (h : done s = false) : step s = .next (ruleStep s) := by
  simp [step, h, cycle_eq_ruleStep]

/-- What a step can do: nothing once the run is over, one cycle before. -/
theorem step_cases {s t : State} (h : step s = .next t) :
    (done s = true ∧ t = s) ∨ (done s = false ∧ t = ruleStep s) := by
  cases hd : done s with
  | true =>
    rw [step_of_done hd] at h
    cases h
    exact .inl ⟨rfl, rfl⟩
  | false =>
    rw [step_of_not_done hd] at h
    cases h
    exact .inr ⟨rfl, rfl⟩

theorem steps_succ (n : Nat) (s : State) : steps (n + 1) s = andThen (step s) (steps n) := rfl

/-- No number of steps moves a finished run (R124, R212). -/
theorem steps_of_done {s : State} (h : done s = true) (n : Nat) : steps n s = .next s := by
  induction n with
  | zero => rfl
  | succ n ih => rw [steps_succ, step_of_done h, andThen_next, ih]

/-- The run is over when nothing is left to fetch and no latch is valid (R124). -/
theorem done_iff (s : State) : done s = true ↔
    (s.pc < 0 ∨ (s.prog.length : Int) ≤ s.pc) ∧ s.cur.ifid.valid = false ∧
      s.cur.idex.valid = false ∧ s.cur.exmem.valid = false ∧ s.cur.memwb.valid = false := by
  simp only [done, Bool.and_eq_true, decide_eq_true_eq, Bool.not_eq_true', and_assoc]

/-- What a cycle can do to the registers: nothing, or one write (R102). -/
theorem ruleRegs_cases (s : State) :
    ruleRegs s = s.regs ∨ ∃ r v, ruleRegs s = writeReg s.regs r v := by
  unfold ruleRegs
  dsimp only
  split
  · exact .inr ⟨_, _, rfl⟩
  · exact .inl rfl

/-- A cycle leaves what is stored for register 0 alone, whatever MEM/WB holds (R21). -/
theorem ruleRegs_getZero (s : State) : (ruleRegs s)[0] = s.regs[0] := by
  obtain hsame | ⟨r, v, hwrite⟩ := ruleRegs_cases s
  · rw [hsame]
  · rw [hwrite, writeReg_getZero]

/-- No step changes what is stored for register 0. -/
theorem step_regs_getZero {s t : State} (h : step s = .next t) : t.regs[0] = s.regs[0] := by
  obtain ⟨-, rfl⟩ | ⟨-, rfl⟩ := step_cases h
  · rfl
  · exact ruleRegs_getZero s

/-- Settles O39: a cycle changes registers in Writeback only, and a write spares register 0. -/
theorem stepKeepsRegisterZero : Obligations.StepKeepsRegisterZero := by
  refine ⟨readReg_zero, writeReg_zero, fun s t hz hstep => ?_⟩
  exact (step_regs_getZero hstep).trans hz

/-- Settles O27, by the reading of `done` and by induction on the number of steps. -/
theorem doneEndsTheRun : Obligations.DoneEndsTheRun := fun s =>
  ⟨done_iff s, steps_of_done⟩

end Sys2Proof.Machine
end

section
/-! SUPPORT. Unused record fields have no effect (R73): two states that differ only in them are followed,
latch by latch, through one cycle of rule R123; and a record decoded from a word has 0 in them. -/

namespace Sys2Proof.Safety

open Sys2Proof.Machine

/-! ### The relation, one latch at a time -/

/-- IF/ID latches that differ only where no rule looks. -/
def SameUseIfId (l k : IfIdLatch) : Prop :=
  l.valid = k.valid ∧ (l.valid = true → SameUseRecord l.ins k.ins)

/-- ID/EX latches that differ only where no rule looks. -/
def SameUseIdEx (l k : IdExLatch) : Prop :=
  l.valid = k.valid ∧ (l.valid = true → SameUseRecord l.ins k.ins ∧
    (usesA l.ins.ins.op = true → l.a = k.a) ∧ (usesB l.ins.ins.op = true → l.b = k.b))

/-- EX/MEM latches that differ only where no rule looks. -/
def SameUseExMem (l k : ExMemLatch) : Prop :=
  l.valid = k.valid ∧ (l.valid = true → SameUseRecord l.ins k.ins ∧ l.alu = k.alu ∧
    (l.ins.ins.op = .sw → l.sdata = k.sdata) ∧ l.taken = k.taken ∧ l.target = k.target)

/-- MEM/WB latches that differ only where no rule looks. -/
def SameUseMemWb (l k : MemWbLatch) : Prop :=
  l.valid = k.valid ∧ (l.valid = true → SameUseRecord l.ins k.ins ∧ l.alu = k.alu ∧ l.ldata = k.ldata)

/-- The relation on four latches is the relation on each. -/
theorem sameUseLatches_iff (l k : Latches) : SameUseLatches l k ↔
    SameUseIfId l.ifid k.ifid ∧ SameUseIdEx l.idex k.idex ∧
      SameUseExMem l.exmem k.exmem ∧ SameUseMemWb l.memwb k.memwb := Iff.rfl

/-- Related latches are both bubbles, or both hold an instruction and agree on what is used. -/
theorem bothInvalid_or_bothValid {v w : Bool} {P : Prop} (h : v = w ∧ (v = true → P)) :
    (v = false ∧ w = false) ∨ (v = true ∧ w = true ∧ P) := by
  obtain ⟨rfl, hP⟩ := h
  cases v with
  | false => exact .inl ⟨rfl, rfl⟩
  | true => exact .inr ⟨rfl, rfl, hP rfl⟩

/-- The source-A fields agree where they are used. -/
theorem SameUse.ra_eq {i j : Instr} : SameUse i j → usesA i.op = true → i.ra = j.ra :=
  fun ⟨_, _, hra, _⟩ => hra

/-- The source-B fields agree where they are used. -/
theorem SameUse.rb_eq {i j : Instr} : SameUse i j → usesB i.op = true → i.rb = j.rb :=
  fun ⟨_, _, _, hrb, _⟩ => hrb

/-! ### Hazards: forwarding and the interlock look at used fields only -/

/-- The arithmetic operations write a register (R72). -/
theorem writesReg_of_isArith {o : Op} (h : isArith o = true) : writesReg o = true := by
  cases o with
  | add | sub => rfl
  | nop | lw | sw | beq => cases h

/-- A comparison made only where a field is used gives the same for fields that agree there. -/
theorem used_and_beq_eq {used : Bool} {x y : Reg} (h : used = true → x = y) (z : Reg) :
    (used && x == z) = (used && y == z) := by
  cases used with
  | false => rfl
  | true => rw [h rfl]

/-- EX/MEM's eligibility as a source looks at `rd` for an add or a sub only. -/
theorem SameUseExMem.forwards_eq {l k : ExMemLatch} (h : SameUseExMem l k) (r : Reg) :
    forwardsFromExMem l r = forwardsFromExMem k r := by
  obtain ⟨hl, hk⟩ | ⟨hl, hk, ⟨⟨hop, hrd, -⟩, -⟩, -⟩ := bothInvalid_or_bothValid h
  · simp [forwardsFromExMem, hl, hk]
  · cases harith : isArith k.ins.ins.op with
    | false => simp [forwardsFromExMem, hop, harith]
    | true =>
      have hrd := hrd (hop ▸ writesReg_of_isArith harith)
      simp only [forwardsFromExMem, hl, hk, hop, hrd]

/-- MEM/WB's eligibility as a source looks at `rd` for a register-writing instruction only. -/
theorem SameUseMemWb.forwards_eq {l k : MemWbLatch} (h : SameUseMemWb l k) (r : Reg) :
    forwardsFromMemWb l r = forwardsFromMemWb k r := by
  obtain ⟨hl, hk⟩ | ⟨hl, hk, ⟨⟨hop, hrd, -⟩, -⟩, -⟩ := bothInvalid_or_bothValid h
  · simp [forwardsFromMemWb, hl, hk]
  · cases hw : writesReg k.ins.ins.op with
    | false => simp [forwardsFromMemWb, hop, hw]
    | true => simp only [forwardsFromMemWb, hl, hk, hop, hrd (hop ▸ hw)]

/-- The value that MEM/WB forwards, where it is an eligible source. -/
theorem SameUseMemWb.writebackValue_eq {l k : MemWbLatch} (h : SameUseMemWb l k) {r : Reg}
    (hf : forwardsFromMemWb k r = true) : writebackValue l = writebackValue k := by
  obtain ⟨-, hk⟩ | ⟨-, -, ⟨⟨hop, -⟩, -⟩, halu, hldata⟩ := bothInvalid_or_bothValid h
  · simp [forwardsFromMemWb, hk] at hf
  · simp only [writebackValue, hop, halu, hldata]

/-- The alu value that EX/MEM forwards, where it is an eligible source. -/
theorem SameUseExMem.alu_eq {l k : ExMemLatch} (h : SameUseExMem l k) {r : Reg}
    (hf : forwardsFromExMem k r = true) : l.alu = k.alu := by
  obtain ⟨-, hk⟩ | ⟨-, -, -, halu, -⟩ := bothInvalid_or_bothValid h
  · simp [forwardsFromExMem, hk] at hf
  · exact halu

/-- Forwarding gives the same operand for the same register and latched value (R108). -/
theorem forward_eq_of_sameUse {l k : Latches} (h : SameUseLatches l k) (r : Reg) (v : Word) :
    forward l r v = forward k r v := by
  obtain ⟨-, -, hexmem, hmemwb⟩ := (sameUseLatches_iff l k).mp h
  unfold forward
  rw [hexmem.forwards_eq, hmemwb.forwards_eq]
  split
  next hf => exact hexmem.alu_eq hf
  next =>
    split
    next hf => exact hmemwb.writebackValue_eq hf
    next => rfl

/-- The interlock looks at `rd` of a lw and at the source fields that IF/ID's operation uses (R115). -/
theorem loadUse_eq_of_sameUse {l k : IfIdLatch} {l' k' : IdExLatch} (h : SameUseIfId l k)
    (h' : SameUseIdEx l' k') : loadUse l l' = loadUse k k' := by
  obtain ⟨hl, hk⟩ | ⟨hl, hk, ⟨hop, -, hra, hrb, -⟩, -⟩ := bothInvalid_or_bothValid h
  · simp [loadUse, hl, hk]
  obtain ⟨hl', hk'⟩ | ⟨hl', hk', ⟨⟨hop', hrd', -⟩, -⟩, -⟩ := bothInvalid_or_bothValid h'
  · simp [loadUse, hl', hk']
  · by_cases hlw : k'.ins.ins.op = .lw
    · have hrd : l'.ins.ins.rd = k'.ins.ins.rd := hrd' (by rw [hop', hlw]; rfl)
      rw [hop] at hra hrb
      simp only [loadUse, hl, hk, hl', hk', hop, hop', hrd, used_and_beq_eq hra, used_and_beq_eq hrb]
    · have hne : (k'.ins.ins.op == .lw) = false := by simpa using hlw
      simp [loadUse, hop', hne]

/-- The execute function on records and operands that agree on what is used: every result agrees, the
store-data value where the operation stores it (R113). -/
theorem execFunction_eq_of_sameUse {i j : Instr} (h : SameUse i j) (idx : Int) {a b a' b' : Word}
    (ha : usesA i.op = true → a = a') (hb : usesB i.op = true → b = b') :
    (execFunction i idx a b).alu = (execFunction j idx a' b').alu ∧
      (i.op = .sw → (execFunction i idx a b).sdata = (execFunction j idx a' b').sdata) ∧
      (execFunction i idx a b).taken = (execFunction j idx a' b').taken ∧
      (execFunction i idx a b).target = (execFunction j idx a' b').target := by
  obtain ⟨hop, -, -, -, himm⟩ := h
  rw [hop] at ha hb himm ⊢
  cases ho : j.op with
  | nop => simp [execFunction, hop, ho]
  | add | sub =>
    rw [ho] at ha hb
    simp [execFunction, hop, ho, ha rfl, hb rfl]
  | lw =>
    rw [ho] at ha himm
    simp [execFunction, hop, ho, ha rfl, himm rfl]
  | sw | beq =>
    rw [ho] at ha hb himm
    simp [execFunction, hop, ho, ha rfl, hb rfl, himm rfl]

/-! ### Related states, field by field -/

section
variable {s r : State}

theorem SameUseState.regs_eq : SameUseState s r → s.regs = r.regs :=
  fun ⟨hregs, _⟩ => hregs
theorem SameUseState.pc_eq : SameUseState s r → s.pc = r.pc :=
  fun ⟨_, hpc, _⟩ => hpc
theorem SameUseState.mem_eq : SameUseState s r → s.mem = r.mem :=
  fun ⟨_, _, hmem, _⟩ => hmem
theorem SameUseState.cycles_eq : SameUseState s r → s.cycles = r.cycles :=
  fun ⟨_, _, _, hcycles, _⟩ => hcycles
theorem SameUseState.retired_eq : SameUseState s r → s.retired = r.retired :=
  fun ⟨_, _, _, _, hretired, _⟩ => hretired
theorem SameUseState.prog_sameUse : SameUseState s r → List.Forall₂ SameUse s.prog r.prog :=
  fun ⟨_, _, _, _, _, hprog, _⟩ => hprog
theorem SameUseState.cur_sameUse : SameUseState s r → SameUseLatches s.cur r.cur :=
  fun ⟨_, _, _, _, _, _, hcur, _⟩ => hcur
theorem SameUseState.ifid_sameUse (h : SameUseState s r) : SameUseIfId s.cur.ifid r.cur.ifid :=
  ((sameUseLatches_iff _ _).mp h.cur_sameUse).1
theorem SameUseState.idex_sameUse (h : SameUseState s r) : SameUseIdEx s.cur.idex r.cur.idex :=
  ((sameUseLatches_iff _ _).mp h.cur_sameUse).2.1
theorem SameUseState.exmem_sameUse (h : SameUseState s r) : SameUseExMem s.cur.exmem r.cur.exmem :=
  ((sameUseLatches_iff _ _).mp h.cur_sameUse).2.2.1
theorem SameUseState.memwb_sameUse (h : SameUseState s r) : SameUseMemWb s.cur.memwb r.cur.memwb :=
  ((sameUseLatches_iff _ _).mp h.cur_sameUse).2.2.2

/-! ### One cycle: each line of R123 keeps the relation -/

/-- `done` looks at `pc`, at the number of instructions and at the valid bits (R124). -/
theorem SameUseState.done_eq (h : SameUseState s r) : done s = done r := by
  simp only [done, h.pc_eq, h.prog_sameUse.length_eq, h.ifid_sameUse.1, h.idex_sameUse.1,
    h.exmem_sameUse.1, h.memwb_sameUse.1]

/-- The registers after Writeback (R102). -/
theorem SameUseState.ruleRegs_eq (h : SameUseState s r) : ruleRegs s = ruleRegs r := by
  obtain ⟨hs, hr⟩ | ⟨hs, hr, ⟨⟨hop, hrd, -⟩, -⟩, halu, hldata⟩ :=
    bothInvalid_or_bothValid h.memwb_sameUse
  · simp [ruleRegs, hs, hr, h.regs_eq]
  · cases hw : writesReg r.cur.memwb.ins.ins.op with
    | false => simp [ruleRegs, hop, hw, h.regs_eq]
    | true => simp only [ruleRegs, hs, hr, hop, hrd (hop ▸ hw), halu, hldata, h.regs_eq]

/-- The count of retired instructions (R103). -/
theorem SameUseState.ruleRetired_eq (h : SameUseState s r) : ruleRetired s = ruleRetired r := by
  simp only [ruleRetired, h.memwb_sameUse.1, h.retired_eq]

/-- The memory after the Memory step: the store data is looked at for a sw only (R106). -/
theorem SameUseState.ruleMem_eq (h : SameUseState s r) : ruleMem s = ruleMem r := by
  obtain ⟨hs, hr⟩ | ⟨hs, hr, ⟨⟨hop, -⟩, -⟩, halu, hsdata, -⟩ :=
    bothInvalid_or_bothValid h.exmem_sameUse
  · simp [ruleMem, hs, hr, h.mem_eq]
  · by_cases hsw : r.cur.exmem.ins.ins.op = .sw
    · simp only [ruleMem, hs, hr, hop, halu, hsdata (hop.trans hsw), h.mem_eq]
    · have hne : (r.cur.exmem.ins.ins.op == .sw) = false := by simpa using hsw
      simp [ruleMem, hop, hne, h.mem_eq]

/-- `MEMWB'`: the load data of a lw is read from one memory at one address (R104, R105). -/
theorem SameUseState.ruleMemWb_sameUse (h : SameUseState s r) :
    SameUseMemWb (ruleMemWb s) (ruleMemWb r) := by
  obtain ⟨hs, hr⟩ | ⟨hs, hr, hins, halu, -⟩ := bothInvalid_or_bothValid h.exmem_sameUse
  · simp [SameUseMemWb, ruleMemWb, hs, hr, MemWbLatch.invalid]
  · have hop : s.cur.exmem.ins.ins.op = r.cur.exmem.ins.ins.op := hins.1.1
    simp [SameUseMemWb, ruleMemWb, hs, hr, hins, halu, h.mem_eq, hop]

/-- `EXMEM'`: the operands that the operation uses are forwarded alike (R107, R113). -/
theorem SameUseState.ruleExMem_sameUse (h : SameUseState s r) :
    SameUseExMem (ruleExMem s) (ruleExMem r) := by
  obtain ⟨hs, hr⟩ | ⟨hs, hr, ⟨hins, hidx⟩, ha, hb⟩ := bothInvalid_or_bothValid h.idex_sameUse
  · simp [SameUseExMem, ruleExMem, hs, hr, ExMemLatch.invalid]
  · have hopA : usesA s.cur.idex.ins.ins.op = true →
        forward s.cur s.cur.idex.ins.ins.ra s.cur.idex.a =
          forward r.cur r.cur.idex.ins.ins.ra r.cur.idex.a := fun hu => by
      rw [hins.ra_eq hu, ha hu, forward_eq_of_sameUse h.cur_sameUse]
    have hopB : usesB s.cur.idex.ins.ins.op = true →
        forward s.cur s.cur.idex.ins.ins.rb s.cur.idex.b =
          forward r.cur r.cur.idex.ins.ins.rb r.cur.idex.b := fun hu => by
      rw [hins.rb_eq hu, hb hu, forward_eq_of_sameUse h.cur_sameUse]
    simpa [SameUseExMem, ruleExMem, hs, hr, SameUseRecord, hins, hidx] using
      execFunction_eq_of_sameUse hins r.cur.idex.ins.idx hopA hopB

/-- The signal `stall` (R115). -/
theorem SameUseState.stallSignal_eq (h : SameUseState s r) : stallSignal s = stallSignal r :=
  loadUse_eq_of_sameUse h.ifid_sameUse h.idex_sameUse

/-- The signal `taken` (R114). -/
theorem SameUseState.ruleTaken_eq (h : SameUseState s r) : ruleTaken s = ruleTaken r := by
  obtain ⟨hs, hr⟩ | ⟨hs, hr, -, -, -, htaken, -⟩ := bothInvalid_or_bothValid h.ruleExMem_sameUse
  · simp [ruleTaken, hs, hr]
  · simp [ruleTaken, hs, hr, htaken]

/-- The signal `target` (R114); it is 0 when Execute holds a bubble. -/
theorem SameUseState.ruleTarget_eq (h : SameUseState s r) : ruleTarget s = ruleTarget r := by
  obtain ⟨hs, hr⟩ | ⟨hs, -, -⟩ := bothInvalid_or_bothValid h.idex_sameUse
  · simp [ruleTarget, ruleExMem, hs, hr]
  · obtain ⟨-, -, -, -, htarget⟩ := h.ruleExMem_sameUse.2 (by simp [ruleExMem, hs])
    exact htarget

/-- `IDEX'`: the source fields that the operation uses are read from equal registers (R117). -/
theorem SameUseState.ruleIdEx_sameUse (h : SameUseState s r) :
    SameUseIdEx (ruleIdEx s) (ruleIdEx r) := by
  obtain ⟨hs, hr⟩ | ⟨hs, hr, hins⟩ := bothInvalid_or_bothValid h.ifid_sameUse
  · simp [SameUseIdEx, ruleIdEx, hs, hr, IdExLatch.invalid]
  · simp only [ruleIdEx, hs, hr, h.stallSignal_eq, h.ruleTaken_eq, h.ruleRegs_eq]
    split
    next =>
      exact ⟨rfl, fun _ =>
        ⟨hins, fun hu => by rw [hins.1.ra_eq hu], fun hu => by rw [hins.1.rb_eq hu]⟩⟩
    next => exact ⟨rfl, nofun⟩

/-- `pc'` (R119). -/
theorem SameUseState.rulePc_eq (h : SameUseState s r) : rulePc s = rulePc r := by
  simp only [rulePc, h.stallSignal_eq, h.ruleTaken_eq, h.ruleTarget_eq, h.pc_eq,
    h.prog_sameUse.length_eq]

/-- Related lists have related entries at every index, or none. -/
theorem rel_getElem?_of_forall₂ {p q : List Instr} (h : List.Forall₂ SameUse p q) (k : Nat) :
    Option.Rel SameUse p[k]? q[k]? := by
  induction h generalizing k with
  | nil => exact .none
  | cons hij _ ih =>
    cases k with
    | zero => exact .some hij
    | succ k => exact ih k

/-- What Fetch finds in two program stores that differ in unused fields (R66, R120). -/
theorem fetchAt_sameUse {p q : List Instr} (h : List.Forall₂ SameUse p q) (pc : Int) :
    Option.Rel SameUse (fetchAt p pc) (fetchAt q pc) := by
  unfold fetchAt
  split
  next => exact rel_getElem?_of_forall₂ h pc.toNat
  next => exact .none

/-- `IFID'`: a new record from the program, the held one, or a bubble (R119, R121). -/
theorem SameUseState.ruleIfId_sameUse (h : SameUseState s r) :
    SameUseIfId (ruleIfId s) (ruleIfId r) := by
  unfold ruleIfId
  rw [h.stallSignal_eq, h.ruleTaken_eq, h.pc_eq]
  split
  next => exact ⟨rfl, nofun⟩
  next =>
    split
    next => exact h.ifid_sameUse
    next =>
      have hfetch := fetchAt_sameUse h.prog_sameUse r.pc
      generalize fetchAt s.prog r.pc = x, fetchAt r.prog r.pc = y at hfetch
      cases hfetch with
      | none => exact ⟨rfl, nofun⟩
      | some hij => exact ⟨rfl, fun _ => ⟨hij, rfl⟩⟩

/-! ### The trace entry and the next state -/

/-- Related stages are reported alike (R127). -/
theorem sameUseReport_report {v w : Bool} {a b : Record}
    (h : v = w ∧ (v = true → SameUseRecord a b)) : SameUseReport (report v a) (report w b) := by
  obtain ⟨rfl, rfl⟩ | ⟨rfl, rfl, hab⟩ := bothInvalid_or_bothValid h
  · trivial
  · exact hab

/-- The trace entry of the cycle: the cycle number, the signals and the reported stages (R127). -/
theorem SameUseState.ruleTrace_sameUse (h : SameUseState s r) :
    SameUseTrace (some (ruleTrace s)) (some (ruleTrace r)) :=
  have hidex := h.ruleIdEx_sameUse
  have hexmem := h.ruleExMem_sameUse
  have hmemwb := h.ruleMemWb_sameUse
  ⟨congrArg (· + 1) h.cycles_eq, h.stallSignal_eq, h.ruleTaken_eq, h.ruleTarget_eq,
    sameUseReport_report h.ruleIfId_sameUse,
    sameUseReport_report ⟨hidex.1, fun hv => (hidex.2 hv).1⟩,
    sameUseReport_report ⟨hexmem.1, fun hv => (hexmem.2 hv).1⟩,
    sameUseReport_report ⟨hmemwb.1, fun hv => (hmemwb.2 hv).1⟩⟩

/-- One cycle keeps the relation: R123's state, line by line. -/
theorem SameUseState.ruleStep_sameUse (h : SameUseState s r) :
    SameUseState (ruleStep s) (ruleStep r) :=
  ⟨h.ruleRegs_eq, h.rulePc_eq, h.ruleMem_eq, congrArg (· + 1) h.cycles_eq, h.ruleRetired_eq,
    h.prog_sameUse,
    ⟨h.ruleIfId_sameUse, h.ruleIdEx_sameUse, h.ruleExMem_sameUse, h.ruleMemWb_sameUse⟩,
    h.ruleTrace_sameUse⟩

/-- One step keeps the relation: both runs are over, or both make one cycle. -/
theorem SameUseState.step_sameUse (h : SameUseState s r) :
    ∃ t q, step s = .next t ∧ step r = .next q ∧ SameUseState t q := by
  cases hd : done r with
  | true => exact ⟨s, r, step_of_done (h.done_eq.trans hd), step_of_done hd, h⟩
  | false =>
    exact ⟨ruleStep s, ruleStep r, step_of_not_done (h.done_eq.trans hd), step_of_not_done hd,
      h.ruleStep_sameUse⟩

end

/-! ### Records from words -/

/-- The decoder answers canonical records only (R73, R79). -/
theorem wellFormed_of_decode {w : Word} {i : Instr} (h : decode w = .ok i) : i.WellFormed = true := by
  unfold decode at h
  split_ifs at h <;> cases h <;> rfl

/-- A canonical record has 0 in every field that its operation does not use (R72, R73). -/
theorem unused_zero_of_wellFormed {i : Instr} (h : i.WellFormed = true) :
    (writesReg i.op = false → i.rd = 0#5) ∧ (usesA i.op = false → i.ra = 0#5) ∧
      (usesB i.op = false → i.rb = 0#5) ∧ (usesImm i.op = false → i.imm = 0#16) := by
  cases i <;> simp_all [Instr.WellFormed, Instr.op, Instr.rd, Instr.ra, Instr.rb, Instr.imm,
    writesReg, usesA, usesB, usesImm]

/-- Settles O47: the relation is kept line by line of R123, and decoded records are canonical. -/
theorem unusedFieldsHaveNoEffect : Obligations.UnusedFieldsHaveNoEffect :=
  ⟨fun _ _ h => h.step_sameUse, fun _ _ h => unused_zero_of_wellFormed (wellFormed_of_decode h)⟩

end Sys2Proof.Safety
end

section
/-! SUPPORT. The lines of rule R123 case by case: what each of the five steps of a cycle leaves in the
registers, the memory, `pc` and the next latches, and when its three signals hold. The statements about the
steps of a cycle follow from these and from `step_of_not_done`. -/

namespace Sys2Proof.Machine

/-! ### The groups of operations (R72) -/

theorem isArith_iff (o : Op) : isArith o = true ↔ o = .add ∨ o = .sub := by cases o <;> decide

theorem writesReg_iff (o : Op) : writesReg o = true ↔ o = .add ∨ o = .sub ∨ o = .lw := by
  cases o <;> decide

theorem writesReg_eq_false_iff (o : Op) : writesReg o = false ↔ o = .nop ∨ o = .sw ∨ o = .beq := by
  cases o <;> decide

theorem usesA_iff (o : Op) :
    usesA o = true ↔ o = .add ∨ o = .sub ∨ o = .lw ∨ o = .sw ∨ o = .beq := by cases o <;> decide

theorem usesB_iff (o : Op) : usesB o = true ↔ o = .add ∨ o = .sub ∨ o = .sw ∨ o = .beq := by
  cases o <;> decide

/-! ### Forwarding and the interlock -/

theorem forwardsFromExMem_iff (l : ExMemLatch) (r : Reg) : forwardsFromExMem l r = true ↔
    l.valid = true ∧ (l.ins.ins.op = .add ∨ l.ins.ins.op = .sub) ∧ l.ins.ins.rd ≠ 0#5 ∧
      l.ins.ins.rd = r := by
  simp [forwardsFromExMem, isArith_iff, and_assoc]

theorem forwardsFromMemWb_iff (l : MemWbLatch) (r : Reg) : forwardsFromMemWb l r = true ↔
    l.valid = true ∧ (l.ins.ins.op = .add ∨ l.ins.ins.op = .sub ∨ l.ins.ins.op = .lw) ∧
      l.ins.ins.rd ≠ 0#5 ∧ l.ins.ins.rd = r := by
  simp [forwardsFromMemWb, writesReg_iff, and_assoc]

/-- A lw forwards its load data (R111). -/
theorem writebackValue_of_lw {l : MemWbLatch} (h : l.ins.ins.op = .lw) :
    writebackValue l = l.ldata := by
  simp [writebackValue, h]

/-- Everything but a lw forwards its ALU result (R111). -/
theorem writebackValue_of_ne_lw {l : MemWbLatch} (h : l.ins.ins.op ≠ .lw) :
    writebackValue l = l.alu := by
  unfold writebackValue
  split
  next hlw => exact absurd hlw h
  all_goals rfl

/-- EX/MEM comes first (R109). -/
theorem forward_of_exMem {l : Latches} {r : Reg} {v : Word}
    (hx : forwardsFromExMem l.exmem r = true) : forward l r v = l.exmem.alu := if_pos hx

/-- MEM/WB comes second (R109). -/
theorem forward_of_memWb {l : Latches} {r : Reg} {v : Word}
    (hx : ¬ forwardsFromExMem l.exmem r = true) (hw : forwardsFromMemWb l.memwb r = true) :
    forward l r v = writebackValue l.memwb := (if_neg hx).trans (if_pos hw)

/-- The latched value comes last (R109). -/
theorem forward_of_no_source {l : Latches} {r : Reg} {v : Word}
    (hx : ¬ forwardsFromExMem l.exmem r = true) (hw : ¬ forwardsFromMemWb l.memwb r = true) :
    forward l r v = v := (if_neg hx).trans (if_neg hw)

/-- When the interlock asks for a stall (R115). -/
theorem loadUse_iff (f : IfIdLatch) (d : IdExLatch) : loadUse f d = true ↔
    f.valid = true ∧ d.valid = true ∧ d.ins.ins.op = .lw ∧ d.ins.ins.rd ≠ 0#5 ∧
      ((usesA f.ins.ins.op = true ∧ f.ins.ins.ra = d.ins.ins.rd) ∨
        (usesB f.ins.ins.op = true ∧ f.ins.ins.rb = d.ins.ins.rd)) := by
  simp [loadUse, and_assoc]

/-! ### The execute function (R113) -/

section
variable {i : Instr} {idx : Int} {a b : Word}

theorem execFunction_of_nop (h : i.op = .nop) : execFunction i idx a b = .value 0#32 := by
  simp [execFunction, h, ExecResult.value]

theorem execFunction_of_add (h : i.op = .add) : execFunction i idx a b = .value (a + b) := by
  simp [execFunction, h, ExecResult.value]

theorem execFunction_of_sub (h : i.op = .sub) : execFunction i idx a b = .value (a - b) := by
  simp [execFunction, h, ExecResult.value]

/-- lw and sw both compute an address and keep source-B. -/
theorem execFunction_of_access (h : i.op = .lw ∨ i.op = .sw) :
    execFunction i idx a b = .access (effectiveAddress a i.imm) b := by
  obtain h | h := h <;> simp [execFunction, h, ExecResult.access, effectiveAddress, sext32]

theorem execFunction_of_beq_taken (h : i.op = .beq) (hab : a = b) :
    execFunction i idx a b = .branch true (branchTarget idx i.imm) := by
  simp [execFunction, h, hab, ExecResult.branch, branchTarget]

theorem execFunction_of_beq_not_taken (h : i.op = .beq) (hab : a ≠ b) :
    execFunction i idx a b = .value 0#32 := by
  simp [execFunction, h, hab, ExecResult.value]

/-- Only a beq on equal operands branches (R114). -/
theorem execFunction_taken_iff : (execFunction i idx a b).taken = true ↔ i.op = .beq ∧ a = b := by
  cases ho : i.op with
  | beq =>
    by_cases hab : a = b
    · rw [execFunction_of_beq_taken ho hab]
      simp [ExecResult.branch, hab]
    · rw [execFunction_of_beq_not_taken ho hab]
      simp [ExecResult.value, hab]
  | nop | add | sub | lw | sw => simp [execFunction, ho]

end

section
variable {s : State}

/-! ### Writeback (R102, R103) -/

theorem ruleRegs_of_write (hv : s.cur.memwb.valid = true)
    (hop : writesReg s.cur.memwb.ins.ins.op = true) (hrd : s.cur.memwb.ins.ins.rd ≠ 0#5) :
    ruleRegs s = s.regs.set s.cur.memwb.ins.ins.rd.toNat
      (if s.cur.memwb.ins.ins.op = .lw then s.cur.memwb.ldata else s.cur.memwb.alu)
      s.cur.memwb.ins.ins.rd.isLt := by
  simp [ruleRegs, writeReg, hv, hop, hrd]

theorem ruleRegs_of_no_write (h : s.cur.memwb.valid = false ∨
    writesReg s.cur.memwb.ins.ins.op = false ∨ s.cur.memwb.ins.ins.rd = 0#5) :
    ruleRegs s = s.regs := by
  obtain h | h | h := h <;> simp [ruleRegs, h]

theorem ruleRetired_of_valid (hv : s.cur.memwb.valid = true) : ruleRetired s = s.retired + 1 :=
  if_pos hv

theorem ruleRetired_of_invalid (hv : s.cur.memwb.valid = false) : ruleRetired s = s.retired := by
  simp [ruleRetired, hv]

/-! ### Memory (R104 to R106) -/

theorem ruleMemWb_of_lw (hv : s.cur.exmem.valid = true) (hop : s.cur.exmem.ins.ins.op = .lw) :
    ruleMemWb s = ⟨true, s.cur.exmem.ins, s.cur.exmem.alu, memRead s.mem s.cur.exmem.alu⟩ := by
  simp [ruleMemWb, hv, hop]

theorem ruleMemWb_of_ne_lw (hv : s.cur.exmem.valid = true) (hop : s.cur.exmem.ins.ins.op ≠ .lw) :
    ruleMemWb s = ⟨true, s.cur.exmem.ins, s.cur.exmem.alu, 0#32⟩ := by
  simp [ruleMemWb, hv, hop]

theorem ruleMemWb_of_invalid (hv : s.cur.exmem.valid = false) : ruleMemWb s = MemWbLatch.invalid := by
  simp [ruleMemWb, hv]

theorem ruleMem_of_sw (hv : s.cur.exmem.valid = true) (hop : s.cur.exmem.ins.ins.op = .sw) :
    ruleMem s = memWrite s.mem s.cur.exmem.alu s.cur.exmem.sdata := by
  simp [ruleMem, hv, hop]

theorem ruleMem_of_no_store (h : s.cur.exmem.valid = false ∨ s.cur.exmem.ins.ins.op ≠ .sw) :
    ruleMem s = s.mem := by
  obtain h | h := h <;> simp [ruleMem, h]

/-! ### Execute (R107, R113, R114) -/

theorem ruleExMem_of_invalid (hv : s.cur.idex.valid = false) : ruleExMem s = ExMemLatch.invalid := by
  simp [ruleExMem, hv]

/-- EX/MEM takes the four results of the execute function on the forwarded operands. -/
theorem ruleExMem_of_execFunction (hv : s.cur.idex.valid = true) {r : ExecResult}
    (hr : execFunction s.cur.idex.ins.ins s.cur.idex.ins.idx
      (operandA s.cur.idex.ins.ins.ra s) (operandB s.cur.idex.ins.ins.rb s) = r) :
    ruleExMem s = ⟨true, s.cur.idex.ins, r.alu, r.sdata, r.taken, r.target⟩ := by
  subst hr
  exact if_pos hv

theorem ruleTaken_of_invalid (hv : s.cur.idex.valid = false) : ruleTaken s = false := by
  simp [ruleTaken, ruleExMem_of_invalid hv, ExMemLatch.invalid]

theorem ruleTarget_of_invalid (hv : s.cur.idex.valid = false) : ruleTarget s = 0 := by
  simp [ruleTarget, ruleExMem_of_invalid hv, ExMemLatch.invalid]

/-- `taken` holds for a valid beq on equal forwarded operands only (R114). -/
theorem ruleTaken_iff : ruleTaken s = true ↔ s.cur.idex.valid = true ∧
    s.cur.idex.ins.ins.op = .beq ∧
      operandA s.cur.idex.ins.ins.ra s = operandB s.cur.idex.ins.ins.rb s := by
  cases hv : s.cur.idex.valid with
  | false => simp [ruleTaken_of_invalid hv]
  | true => simp [ruleTaken, ruleExMem_of_execFunction hv rfl, execFunction_taken_iff]

/-! ### Decode (R117, R118) -/

theorem ruleIdEx_of_decode (hv : s.cur.ifid.valid = true) (hs : stallSignal s = false)
    (ht : ruleTaken s = false) : ruleIdEx s = ⟨true, s.cur.ifid.ins,
      readReg (ruleRegs s) s.cur.ifid.ins.ins.ra, readReg (ruleRegs s) s.cur.ifid.ins.ins.rb⟩ := by
  simp [ruleIdEx, hv, hs, ht]

theorem ruleIdEx_of_bubble
    (h : s.cur.ifid.valid = false ∨ stallSignal s = true ∨ ruleTaken s = true) :
    ruleIdEx s = IdExLatch.invalid := by
  obtain h | h | h := h <;> simp [ruleIdEx, h]

/-- A stall wants a lw in ID/EX, a taken branch a beq, so the two never hold together (R118). -/
theorem not_stall_and_taken : ¬ (stallSignal s = true ∧ ruleTaken s = true) := by
  rintro ⟨hstall, htaken⟩
  obtain ⟨-, -, hlw, -⟩ := (loadUse_iff _ _).mp hstall
  obtain ⟨-, hbeq, -⟩ := ruleTaken_iff.mp htaken
  rw [hlw] at hbeq
  cases hbeq

/-! ### Fetch (R119 to R121) -/

theorem fetchAt_of_inside {p : List Instr} {pc : Int} (h0 : 0 ≤ pc) (h1 : pc.toNat < p.length) :
    fetchAt p pc = some p[pc.toNat] :=
  (if_pos h0).trans (List.getElem?_eq_getElem h1)

theorem fetchAt_of_outside {p : List Instr} {pc : Int} (h : pc < 0 ∨ (p.length : Int) ≤ pc) :
    fetchAt p pc = none := by
  unfold fetchAt
  split
  next h0 => exact List.getElem?_eq_none (by omega)
  next => rfl

/-- A taken branch redirects and squashes. -/
theorem ruleFetch_of_taken (ht : ruleTaken s = true) :
    rulePc s = ruleTarget s ∧ ruleIfId s = IfIdLatch.invalid := by
  simp [rulePc, ruleIfId, ht]

/-- A stall holds `pc` and IF/ID. -/
theorem ruleFetch_of_stall (ht : ruleTaken s = false) (hs : stallSignal s = true) :
    rulePc s = s.pc ∧ ruleIfId s = s.cur.ifid := by
  simp [rulePc, ruleIfId, ht, hs]

/-- With `pc` in the program, IF/ID takes the record there. -/
theorem ruleFetch_of_inside (ht : ruleTaken s = false) (hs : stallSignal s = false)
    (h0 : 0 ≤ s.pc) (h1 : s.pc.toNat < s.prog.length) :
    rulePc s = s.pc + 1 ∧ ruleIfId s = ⟨true, ⟨s.prog[s.pc.toNat], s.pc⟩⟩ := by
  have hlt : s.pc < s.prog.length := by omega
  simp [rulePc, ruleIfId, ht, hs, h0, hlt, fetchAt_of_inside h0 h1]

/-- With `pc` outside the program, nothing is fetched. -/
theorem ruleFetch_of_outside (ht : ruleTaken s = false) (hs : stallSignal s = false)
    (h : s.pc < 0 ∨ (s.prog.length : Int) ≤ s.pc) :
    rulePc s = s.pc ∧ ruleIfId s = IfIdLatch.invalid := by
  have hout : ¬ (0 ≤ s.pc ∧ s.pc < s.prog.length) := by omega
  simp [rulePc, ruleIfId, ht, hs, hout, fetchAt_of_outside h]

/-! ### The trace output (R127) -/

/-- A cycle reads nothing of the trace entry before it: no line of R123 mentions it. -/
theorem step_of_traceOut (h : done s = false) (o : Option TraceEntry) :
    step { s with traceOut := o } = step s := by
  have hstep : step { s with traceOut := o } = .next (ruleStep s) := step_of_not_done h
  rw [hstep, step_of_not_done h]

end

end Sys2Proof.Machine
end

section
/-! SUPPORT. The statements about the steps of a cycle, each from the lines of rule R123 above. -/

namespace Sys2Proof.Machine

/-- Settles O18: the two cases of the register write, and the two of the count. -/
theorem writebackStepFollowsItsRules : Obligations.WritebackStepFollowsItsRules := fun s h =>
  ⟨ruleStep s, step_of_not_done h,
    fun hv hop hrd => ruleRegs_of_write hv ((writesReg_iff _).mpr hop) hrd,
    fun hno => ruleRegs_of_no_write (hno.imp_right (Or.imp_left (writesReg_eq_false_iff _).mpr)),
    ruleRetired_of_valid, ruleRetired_of_invalid⟩

/-- Settles O19: lw, the other operations and a bubble for MEM/WB; sw and the rest for the memory. -/
theorem memoryStepFollowsItsRules : Obligations.MemoryStepFollowsItsRules := fun s h =>
  ⟨ruleStep s, step_of_not_done h, ruleMemWb_of_lw, ruleMemWb_of_ne_lw, ruleMemWb_of_invalid,
    ruleMem_of_sw, ruleMem_of_no_store⟩

/-- Settles O20: the execute function, operation by operation, on the forwarded operands. -/
theorem executeStepFollowsItsRules : Obligations.ExecuteStepFollowsItsRules := fun s h =>
  ⟨ruleStep s, ruleTrace s, step_of_not_done h, rfl,
    fun hv => ⟨ruleExMem_of_invalid hv, ruleTaken_of_invalid hv, ruleTarget_of_invalid hv⟩,
    fun hv hop => ruleExMem_of_execFunction hv (execFunction_of_nop hop),
    fun hv hop => ruleExMem_of_execFunction hv (execFunction_of_add hop),
    fun hv hop => ruleExMem_of_execFunction hv (execFunction_of_sub hop),
    fun hv hop => ruleExMem_of_execFunction hv (execFunction_of_access (.inl hop)),
    fun hv hop => ruleExMem_of_execFunction hv (execFunction_of_access (.inr hop)),
    fun hv hop hab => ruleExMem_of_execFunction hv (execFunction_of_beq_taken hop hab),
    fun hv hop hab => ruleExMem_of_execFunction hv (execFunction_of_beq_not_taken hop hab),
    ruleTaken_iff, rfl⟩

/-- Settles O21: EX/MEM first, then MEM/WB with its two values, then the latched value. -/
theorem forwardingFollowsItsRules : Obligations.ForwardingFollowsItsRules := by
  intro l r latched
  simp only [← forwardsFromExMem_iff, ← forwardsFromMemWb_iff]
  exact ⟨forward_of_exMem,
    fun hx hw hlw => (forward_of_memWb hx hw).trans (writebackValue_of_lw hlw),
    fun hx hw hne => (forward_of_memWb hx hw).trans (writebackValue_of_ne_lw hne),
    forward_of_no_source⟩

/-- Settles O22: the cycle reports the interlock's signal, with the uses of R72 written out. -/
theorem loadUseStallFollowsItsRule : Obligations.LoadUseStallFollowsItsRule := by
  refine fun s h => ⟨ruleStep s, ruleTrace s, step_of_not_done h, rfl, ?_⟩
  simp only [← usesA_iff, ← usesB_iff]
  exact loadUse_iff s.cur.ifid s.cur.idex

/-- Settles O23: the plain decode, the three bubbles, and the exclusion of `stall` and `taken`. -/
theorem decodeStepFollowsItsRules : Obligations.DecodeStepFollowsItsRules := fun s h =>
  ⟨ruleStep s, ruleTrace s, step_of_not_done h, rfl, ruleIdEx_of_decode, ruleIdEx_of_bubble,
    not_stall_and_taken⟩

/-- Settles O24: the four cases of Fetch in their order. -/
theorem fetchStepFollowsItsRules : Obligations.FetchStepFollowsItsRules := fun s h =>
  ⟨ruleStep s, ruleTrace s, step_of_not_done h, rfl, ruleFetch_of_taken, ruleFetch_of_stall,
    ruleFetch_of_inside, ruleFetch_of_outside⟩

/-- Settles O25: a cycle, taken through its five steps, is rule R123 (`cycle_eq_ruleStep`). -/
theorem cycleAgreesWithTheStepRule : Obligations.CycleAgreesWithTheStepRule := fun _ h =>
  step_of_not_done h

/-- Settles O26: the entry reports the latches that the same cycle commits, and no cycle reads an entry. -/
theorem everyCycleEmitsItsTraceEntry : Obligations.EveryCycleEmitsItsTraceEntry := fun s h =>
  ⟨ruleStep s, ruleTrace s, step_of_not_done h, rfl, rfl, rfl, rfl, rfl, rfl, rfl, rfl, rfl,
    step_of_traceOut h⟩

end Sys2Proof.Machine
end

section
/-! SUPPORT. The state that load and reset leave: what the memory built from MEM_INIT reads, and the
statement about the reset table. -/

namespace Sys2Proof.Machine

/-- Setting the cells of a list changes no address that the list does not name (R53). -/
theorem memRead_foldl_memWrite_of_not_mem {cells : List (Word × Word)} {a : Word} (m : Memory)
    (ha : a ∉ cells.map Prod.fst) :
    memRead (cells.foldl (fun m cell => memWrite m cell.1 cell.2) m) a = memRead m a := by
  induction cells generalizing m with
  | nil => rfl
  | cons d rest ih =>
    obtain ⟨hne, hrest⟩ := List.ne_and_not_mem_of_not_mem_cons ha
    exact (ih _ hrest).trans (memRead_memWrite_other m d.2 hne)

/-- With distinct addresses, each cell keeps the value that the list gives it. -/
theorem memRead_foldl_memWrite_of_mem {cells : List (Word × Word)} {m : Memory} (hm : m.wf = true)
    (hd : (cells.map Prod.fst).Nodup) {c : Word × Word} (hc : c ∈ cells) :
    memRead (cells.foldl (fun m cell => memWrite m cell.1 cell.2) m) c.1 = c.2 := by
  induction cells generalizing m with
  | nil => cases hc
  | cons d rest ih =>
    obtain ⟨hfresh, hrest⟩ := List.nodup_cons.mp hd
    cases hc with
    | head =>
      calc memRead (rest.foldl (fun m cell => memWrite m cell.1 cell.2) (memWrite m c.1 c.2)) c.1
          = memRead (memWrite m c.1 c.2) c.1 := memRead_foldl_memWrite_of_not_mem _ hfresh
        _ = c.2 := by simp [memRead_memWrite hm]
    | tail _ hmem => exact ih (wf_memWrite hm d.1 d.2) hrest hmem

/-- At launch an address of MEM_INIT reads its value (R54). -/
theorem memRead_initialMemory_of_mem {memInit : List (Word × Word)}
    (hd : (memInit.map Prod.fst).Nodup) {c : Word × Word} (hc : c ∈ memInit) :
    memRead (initialMemory memInit) c.1 = c.2 :=
  memRead_foldl_memWrite_of_mem rfl hd hc

/-- At launch an address outside MEM_INIT reads 0 (R52, R54). -/
theorem memRead_initialMemory_of_not_mem {memInit : List (Word × Word)} {a : Word}
    (ha : a ∉ memInit.map Prod.fst) : memRead (initialMemory memInit) a = 0#32 :=
  memRead_foldl_memWrite_of_not_mem [] ha

/-- Settles O4: the registers from REG_INIT, the memory from MEM_INIT, every other field by the launch
itself. -/
theorem launchFollowsTheResetTable : Obligations.LaunchFollowsTheResetTable :=
  fun _ _ regInit hd =>
    ⟨initialRegs_zero regInit, fun k => initialRegs_succ regInit k.val k.isLt, rfl, rfl, rfl, rfl,
      fun _ hc => memRead_initialMemory_of_mem hd hc, fun _ ha => memRead_initialMemory_of_not_mem ha,
      rfl⟩

end Sys2Proof.Machine
end

section
/-! SUPPORT. The decoder line by line, and that it and the encoder are inverse: a word is determined by its
fixed bits and its fields, so a decoded instruction's own encoding can only be the word it came from. -/

namespace Sys2Proof

/-! ### The lines of the decoder (R79) -/

/-- The bits that an R-format line fixes include the opcode bits that an I-format line fixes. -/
theorem opcodeBits_of_fixedBits (w : Word) :
    w &&& 0xFC000000#32 = (w &&& 0xFC0007FF#32) &&& 0xFC000000#32 := by
  rw [BitVec.and_assoc]; rfl

/-- A word whose opcode bits are not all 0 is on none of the three lines with opcode 0. -/
theorem no_opcodeZero_line {w p : Word} (h : w &&& 0xFC000000#32 = p) (hp : p ≠ 0#32) :
    w ≠ 0x00000000#32 ∧ w &&& 0xFC0007FF#32 ≠ 0x00000020#32 ∧
      w &&& 0xFC0007FF#32 ≠ 0x00000022#32 := by
  refine ⟨?_, ?_, ?_⟩
  · rintro rfl
    exact hp h.symm
  all_goals
    intro hfixed
    rw [opcodeBits_of_fixedBits, hfixed] at h
    exact hp h.symm

section
variable {w : Word}

theorem decode_of_add (h : w &&& 0xFC0007FF#32 = 0x00000020#32) :
    decode w = .ok (.add (fieldD w) (fieldA w) (fieldB w) 0#16) := by
  have hne : w ≠ 0x00000000#32 := by rintro rfl; exact absurd h (by decide)
  simp [decode, h, hne]

theorem decode_of_sub (h : w &&& 0xFC0007FF#32 = 0x00000022#32) :
    decode w = .ok (.sub (fieldD w) (fieldA w) (fieldB w) 0#16) := by
  have hne : w ≠ 0x00000000#32 := by rintro rfl; exact absurd h (by decide)
  simp [decode, h, hne]

theorem decode_of_lw (h : w &&& 0xFC000000#32 = 0x8C000000#32) :
    decode w = .ok (.lw (fieldB w) (fieldA w) 0#5 (fieldImm w)) := by
  obtain ⟨hnop, hadd, hsub⟩ := no_opcodeZero_line h (by decide)
  simp [decode, hnop, hadd, hsub, h]

theorem decode_of_sw (h : w &&& 0xFC000000#32 = 0xAC000000#32) :
    decode w = .ok (.sw 0#5 (fieldA w) (fieldB w) (fieldImm w)) := by
  obtain ⟨hnop, hadd, hsub⟩ := no_opcodeZero_line h (by decide)
  simp [decode, hnop, hadd, hsub, h]

theorem decode_of_beq (h : w &&& 0xFC000000#32 = 0x10000000#32) :
    decode w = .ok (.beq 0#5 (fieldA w) (fieldB w) (fieldImm w)) := by
  obtain ⟨hnop, hadd, hsub⟩ := no_opcodeZero_line h (by decide)
  simp [decode, hnop, hadd, hsub, h]

/-- What a decoded instruction can be: one line's own, with that line's condition. -/
theorem decode_cases {i : Instr} (h : decode w = .ok i) :
    (w = 0x00000000#32 ∧ i = .nop 0#5 0#5 0#5 0#16) ∨
    (w &&& 0xFC0007FF#32 = 0x00000020#32 ∧ i = .add (fieldD w) (fieldA w) (fieldB w) 0#16) ∨
    (w &&& 0xFC0007FF#32 = 0x00000022#32 ∧ i = .sub (fieldD w) (fieldA w) (fieldB w) 0#16) ∨
    (w &&& 0xFC000000#32 = 0x8C000000#32 ∧ i = .lw (fieldB w) (fieldA w) 0#5 (fieldImm w)) ∨
    (w &&& 0xFC000000#32 = 0xAC000000#32 ∧ i = .sw 0#5 (fieldA w) (fieldB w) (fieldImm w)) ∨
    (w &&& 0xFC000000#32 = 0x10000000#32 ∧ i = .beq 0#5 (fieldA w) (fieldB w) (fieldImm w)) := by
  unfold decode at h
  split_ifs at h <;> cases h <;> simp_all

end

/-! ### A word is its fixed bits and its fields -/

/-- Words with the same field have the same bits in it. -/
theorem getLsbD_eq_of_field_eq {v w : Word} {k n j : Nat} (h : v.extractLsb' k n = w.extractLsb' k n)
    (hlo : k ≤ j) (hhi : j < k + n) : v.getLsbD j = w.getLsbD j := by
  have hbit := congrArg (·.getLsbD (j - k)) h
  have hin : j - k < n := by omega
  simpa [BitVec.getLsbD_extractLsb', hin, Nat.add_sub_cancel' hlo] using hbit

/-- Words that agree under a mask agree on every bit that the mask keeps. -/
theorem getLsbD_eq_of_mask_eq {v w m : Word} {j : Nat} (h : v &&& m = w &&& m)
    (hm : m.getLsbD j = true) : v.getLsbD j = w.getLsbD j := by
  simpa [BitVec.getLsbD_and, hm] using congrArg (·.getLsbD j) h

/-- Two words of the R format with the same fixed bits and the same fields are the same word (R77). -/
theorem word_ext_formatR {v w : Word} (hfixed : v &&& 0xFC0007FF#32 = w &&& 0xFC0007FF#32)
    (hA : fieldA v = fieldA w) (hB : fieldB v = fieldB w) (hD : fieldD v = fieldD w) : v = w := by
  have hmask : ∀ j < 32, j < 11 ∨ 26 ≤ j → (0xFC0007FF#32).getLsbD j = true := by decide
  refine BitVec.eq_of_getLsbD_eq fun j hj => ?_
  have hcases : (11 ≤ j ∧ j < 16) ∨ (16 ≤ j ∧ j < 21) ∨ (21 ≤ j ∧ j < 26) ∨ (j < 11 ∨ 26 ≤ j) := by
    omega
  obtain ⟨hlo, hhi⟩ | ⟨hlo, hhi⟩ | ⟨hlo, hhi⟩ | hout := hcases
  · exact getLsbD_eq_of_field_eq hD hlo hhi
  · exact getLsbD_eq_of_field_eq hB hlo hhi
  · exact getLsbD_eq_of_field_eq hA hlo hhi
  · exact getLsbD_eq_of_mask_eq hfixed (hmask j hj hout)

/-- Two words of the I format with the same fixed bits and the same fields are the same word (R78). -/
theorem word_ext_formatI {v w : Word} (hfixed : v &&& 0xFC000000#32 = w &&& 0xFC000000#32)
    (hA : fieldA v = fieldA w) (hB : fieldB v = fieldB w) (hImm : fieldImm v = fieldImm w) : v = w := by
  have hmask : ∀ j < 32, 26 ≤ j → (0xFC000000#32).getLsbD j = true := by decide
  refine BitVec.eq_of_getLsbD_eq fun j hj => ?_
  have hcases : j < 16 ∨ (16 ≤ j ∧ j < 21) ∨ (21 ≤ j ∧ j < 26) ∨ 26 ≤ j := by omega
  obtain hhi | ⟨hlo, hhi⟩ | ⟨hlo, hhi⟩ | hout := hcases
  · exact getLsbD_eq_of_field_eq hImm (Nat.zero_le j) (by omega)
  · exact getLsbD_eq_of_field_eq hB hlo hhi
  · exact getLsbD_eq_of_field_eq hA hlo hhi
  · exact getLsbD_eq_of_mask_eq hfixed (hmask j hj hout)

/-- Encoding the fields of a word with the function code that it has gives the word back. -/
theorem encodeR_of_fields {funct : BitVec 6} (hf : funct = 0b100000#6 ∨ funct = 0b100010#6) {w : Word}
    (h : w &&& 0xFC0007FF#32 = funct.setWidth 32) :
    encodeR funct (fieldD w) (fieldA w) (fieldB w) = w := by
  obtain ⟨hA, hB, hD⟩ := encodeR_fields funct (fieldD w) (fieldA w) (fieldB w)
  exact word_ext_formatR ((encodeR_fixedBits hf _ _ _).trans h.symm) hA hB hD

/-- Encoding the fields of a word with the opcode that it has gives the word back. -/
theorem encodeI_of_fields {opcode : BitVec 6} {w : Word}
    (h : w &&& 0xFC000000#32 = (opcode ++ 0#26 : BitVec 32)) :
    encodeI opcode (fieldA w) (fieldB w) (fieldImm w) = w := by
  obtain ⟨hA, hB, hImm⟩ := encodeI_fields opcode (fieldA w) (fieldB w) (fieldImm w)
  exact word_ext_formatI ((encodeI_fixedBits _ _ _ _).trans h.symm) hA hB hImm

/-! ### Inverse -/

/-- Decoding the word of a canonical record: its row's fixed bits choose the line, its fields the rest. -/
theorem decode_encode {i : Instr} (h : i.WellFormed = true) : decode (encode i) = .ok i := by
  cases i with
  | nop rd ra rb imm =>
    simp only [Instr.WellFormed, Bool.and_eq_true, beq_iff_eq] at h
    obtain ⟨⟨⟨rfl, rfl⟩, rfl⟩, rfl⟩ := h
    rfl
  | add rd ra rb imm =>
    obtain rfl : imm = 0#16 := beq_iff_eq.mp h
    obtain ⟨hA, hB, hD⟩ := encodeR_fields 0b100000#6 rd ra rb
    have hline := decode_of_add (Laws.EncodesItsRow.add rd ra rb 0#16)
    rwa [encode, hA, hB, hD] at hline
  | sub rd ra rb imm =>
    obtain rfl : imm = 0#16 := beq_iff_eq.mp h
    obtain ⟨hA, hB, hD⟩ := encodeR_fields 0b100010#6 rd ra rb
    have hline := decode_of_sub (Laws.EncodesItsRow.sub rd ra rb 0#16)
    rwa [encode, hA, hB, hD] at hline
  | lw rd ra rb imm =>
    obtain rfl : rb = 0#5 := beq_iff_eq.mp h
    obtain ⟨hA, hB, hImm⟩ := encodeI_fields 0b100011#6 ra rd imm
    have hline := decode_of_lw (Laws.EncodesItsRow.lw rd ra 0#5 imm)
    rwa [encode, hA, hB, hImm] at hline
  | sw rd ra rb imm =>
    obtain rfl : rd = 0#5 := beq_iff_eq.mp h
    obtain ⟨hA, hB, hImm⟩ := encodeI_fields 0b101011#6 ra rb imm
    have hline := decode_of_sw (Laws.EncodesItsRow.sw 0#5 ra rb imm)
    rwa [encode, hA, hB, hImm] at hline
  | beq rd ra rb imm =>
    obtain rfl : rd = 0#5 := beq_iff_eq.mp h
    obtain ⟨hA, hB, hImm⟩ := encodeI_fields 0b000100#6 ra rb imm
    have hline := decode_of_beq (Laws.EncodesItsRow.beq 0#5 ra rb imm)
    rwa [encode, hA, hB, hImm] at hline

/-- Encoding what a word decodes to gives the word back (R79, R80). -/
theorem encode_decode {w : Word} {i : Instr} (h : decode w = .ok i) : encode i = w := by
  obtain ⟨rfl, rfl⟩ | ⟨hw, rfl⟩ | ⟨hw, rfl⟩ | ⟨hw, rfl⟩ | ⟨hw, rfl⟩ | ⟨hw, rfl⟩ := decode_cases h
  · rfl
  · exact encodeR_of_fields (.inl rfl) hw
  · exact encodeR_of_fields (.inr rfl) hw
  · exact encodeI_of_fields hw
  · exact encodeI_of_fields hw
  · exact encodeI_of_fields hw

/-- Settles O1: a canonical record by its row and fields, a word by its line. -/
theorem encodeAndDecodeAreInverse : Obligations.EncodeAndDecodeAreInverse :=
  ⟨fun _ h => decode_encode h,
    fun _ _ h => ⟨encode_decode h, Safety.wellFormed_of_decode h⟩⟩

/-! ### The table with positions, and programs of words -/

/-- A decoded word at a position is the instruction with that position (R79). -/
theorem decodeAt_of_decode {w : Word} {i : Instr} (h : decode w = .ok i) (k : Int) :
    decodeAt w k = .ok ⟨i, k⟩ := by
  rw [decodeAt, h]; rfl

/-- A word on none of the six lines is refused (R79, R83). -/
theorem decodeAt_of_unlisted {w : Word} (hnop : w ≠ 0x00000000#32)
    (hadd : w &&& 0xFC0007FF#32 ≠ 0x00000020#32) (hsub : w &&& 0xFC0007FF#32 ≠ 0x00000022#32)
    (hlw : w &&& 0xFC000000#32 ≠ 0x8C000000#32) (hsw : w &&& 0xFC000000#32 ≠ 0xAC000000#32)
    (hbeq : w &&& 0xFC000000#32 ≠ 0x10000000#32) (k : Int) :
    decodeAt w k = .error (.unlistedWord w) := by
  have hdecode : decode w = .error (.unlistedWord w) := by
    simp [decode, hnop, hadd, hsub, hlw, hsw, hbeq]
  rw [decodeAt, hdecode]; rfl

/-- A list that holds a refused word is refused at the position of the first one (R83). -/
theorem loadWords_of_refused {words : List Word} (h : ∃ w ∈ words, ∃ e, decode w = .error e)
    (k : Nat) : ∃ p, Machine.loadWords k words = .error (.unlistedWord p) := by
  induction words generalizing k with
  | nil =>
    obtain ⟨w, hw, -⟩ := h
    cases hw
  | cons w rest ih =>
    cases hd : decode w with
    | error e => exact ⟨k, by simp [Machine.loadWords, hd]⟩
    | ok i =>
      have hrest : ∃ v ∈ rest, ∃ e, decode v = .error e := by
        obtain ⟨v, hv, e, he⟩ := h
        cases hv with
        | head => rw [hd] at he; cases he
        | tail _ hmem => exact ⟨v, hmem, e, he⟩
      obtain ⟨p, hp⟩ := ih hrest (k + 1)
      exact ⟨p, by simp [Machine.loadWords, hd, hp]⟩

/-- Settles O2: each line from its own condition, the refusal of a word, and that of a program. -/
theorem decodeFollowsEachLineOfTheTable : Obligations.DecodeFollowsEachLineOfTheTable := by
  refine ⟨fun w k => ⟨?_, ?_, ?_, ?_, ?_, ?_, ?_⟩, fun words memInit regInit h => ?_⟩
  · rintro rfl
    exact decodeAt_of_decode rfl k
  · exact fun h => decodeAt_of_decode (decode_of_add h) k
  · exact fun h => decodeAt_of_decode (decode_of_sub h) k
  · exact fun h => decodeAt_of_decode (decode_of_lw h) k
  · exact fun h => decodeAt_of_decode (decode_of_sw h) k
  · exact fun h => decodeAt_of_decode (decode_of_beq h) k
  · exact fun hnop hadd hsub hlw hsw hbeq =>
      ⟨_, decodeAt_of_unlisted hnop hadd hsub hlw hsw hbeq k⟩
  · obtain ⟨p, hp⟩ := loadWords_of_refused h 0
    exact ⟨p, by rw [Machine.launchWords, hp]⟩

/-- Settles O3: the sample words are closed facts, each evaluated by the decoder. -/
theorem sampleWordsDecode : Obligations.SampleWordsDecode := by
  unfold Obligations.SampleWordsDecode
  decide

end Sys2Proof
end

section
/-! SUPPORT. Every cycle keeps the memory canonical, and a canonical memory is determined by its reads. -/

namespace Sys2Proof.Machine

/-- What a cycle can do to the memory: nothing, or one write (R106). -/
theorem ruleMem_cases (s : State) : ruleMem s = s.mem ∨ ∃ a v, ruleMem s = memWrite s.mem a v := by
  unfold ruleMem
  dsimp only
  split
  · exact .inr ⟨_, _, rfl⟩
  · exact .inl rfl

/-- A cycle keeps the canonical form, whatever EX/MEM holds. -/
theorem wf_ruleMem {s : State} (h : s.mem.wf = true) : (ruleMem s).wf = true := by
  obtain hsame | ⟨a, v, hwrite⟩ := ruleMem_cases s
  · rwa [hsame]
  · rw [hwrite]
    exact wf_memWrite h a v

/-- Settles O40: a cycle makes at most one write, and a write keeps the form. -/
theorem stepKeepsTheMemoryCanonical : Obligations.StepKeepsTheMemoryCanonical := by
  intro s t hwf hstep
  obtain ⟨-, rfl⟩ | ⟨-, rfl⟩ := step_cases hstep
  · exact hwf
  · exact wf_ruleMem hwf

/-! ### Extensionality -/

/-- The canonical form of a list with a first cell, part by part. -/
theorem wfFrom_cons {lo k : Nat} {v : Word} {rest : Memory} :
    Memory.wfFrom lo ((k, v) :: rest) = true ↔
      lo ≤ k ∧ k < 2 ^ 32 ∧ v ≠ 0#32 ∧ Memory.wfFrom (k + 1) rest = true := by
  simp [Memory.wfFrom, and_assoc]

/-- The first cell is what its address reads as. -/
theorem readCell_cons_self (k : Nat) (v : Word) (rest : Memory) : readCell ((k, v) :: rest) k = v :=
  if_pos rfl

theorem readCell_cons_of_ne {k a : Nat} (h : a ≠ k) (v : Word) (rest : Memory) :
    readCell ((k, v) :: rest) a = readCell rest a :=
  if_neg h

/-- Memories that read alike cannot have different first addresses: the lower one, which is not 0, would read
0 in the other. -/
theorem first_le_of_reads_eq {k k' : Nat} {v v' : Word} {m n : Memory}
    (hm : Memory.wfFrom k ((k, v) :: m) = true) (hn : Memory.wfFrom k' ((k', v') :: n) = true)
    (h : ∀ a < 2 ^ 32, readCell ((k, v) :: m) a = readCell ((k', v') :: n) a) : k' ≤ k := by
  obtain ⟨-, hk, hv, -⟩ := wfFrom_cons.mp hm
  by_contra hlt
  have hread := h k hk
  rw [readCell_cons_self, readCell_below hn (by omega)] at hread
  exact hv hread

/-- Canonical lists of cells that read alike at every address are equal. -/
theorem eq_of_wfFrom_of_reads_eq {m n : Memory} {lo lo' : Nat} (hm : Memory.wfFrom lo m = true)
    (hn : Memory.wfFrom lo' n = true) (h : ∀ a < 2 ^ 32, readCell m a = readCell n a) : m = n := by
  induction m generalizing n lo lo' with
  | nil =>
    cases n with
    | nil => rfl
    | cons d n =>
      obtain ⟨-, hk, hv, -⟩ := wfFrom_cons.mp hn
      have hread := h d.1 hk
      rw [readCell_cons_self] at hread
      exact absurd hread.symm hv
  | cons c m ih =>
    obtain ⟨k, v⟩ := c
    obtain ⟨-, hk, hv, hm'⟩ := wfFrom_cons.mp hm
    cases n with
    | nil =>
      have hread := h k hk
      rw [readCell_cons_self] at hread
      exact absurd hread hv
    | cons d n =>
      obtain ⟨k', v'⟩ := d
      obtain ⟨-, hk', hv', hn'⟩ := wfFrom_cons.mp hn
      have hmk := wfFrom_cons.mpr ⟨le_refl k, hk, hv, hm'⟩
      have hnk := wfFrom_cons.mpr ⟨le_refl k', hk', hv', hn'⟩
      obtain rfl : k = k' := le_antisymm (first_le_of_reads_eq hnk hmk fun a ha => (h a ha).symm)
        (first_le_of_reads_eq hmk hnk h)
      obtain rfl : v = v' := by
        have hread := h k hk
        rwa [readCell_cons_self, readCell_cons_self] at hread
      have hrest : ∀ a < 2 ^ 32, readCell m a = readCell n a := fun a ha => by
        by_cases hak : a = k
        · rw [readCell_below hm' (by omega), readCell_below hn' (by omega)]
        · have hread := h a ha
          rwa [readCell_cons_of_ne hak, readCell_cons_of_ne hak] at hread
      rw [ih hm' hn' hrest]

/-- Settles O44: every address below 2^32 is the address of a word. -/
theorem canonicalMemoriesAreTheirFunction : Obligations.CanonicalMemoriesAreTheirFunction := by
  intro m n hm hn h
  refine eq_of_wfFrom_of_reads_eq hm hn fun a ha => ?_
  have haddress : (BitVec.ofNat 32 a).toNat = a := Nat.mod_eq_of_lt ha
  have hread := h (BitVec.ofNat 32 a)
  rwa [memRead, memRead, haddress] at hread

end Sys2Proof.Machine
end

section
/-! SUPPORT. Every cycle keeps the form of the latches: what an invalid latch holds (R36), and what a valid
one holds in the fields that its operation leaves undefined (R34, R35, R113). -/

namespace Sys2Proof.Machine

open Sys2Proof.Safety

/-! ### The results of the execute function that an operation leaves undefined (R113) -/

section
variable {i : Instr} {idx : Int} {a b : Word}

theorem execFunction_target_of_not_taken (h : (execFunction i idx a b).taken = false) :
    (execFunction i idx a b).target = 0 := by
  cases ho : i.op with
  | beq =>
    by_cases hab : a = b
    · rw [execFunction_of_beq_taken ho hab] at h
      cases h
    · rw [execFunction_of_beq_not_taken ho hab]; rfl
  | nop | add | sub | lw | sw => simp [execFunction, ho]

theorem execFunction_sdata_of_no_access (hlw : i.op ≠ .lw) (hsw : i.op ≠ .sw) :
    (execFunction i idx a b).sdata = 0#32 := by
  cases ho : i.op with
  | lw => exact absurd ho hlw
  | sw => exact absurd ho hsw
  | beq =>
    by_cases hab : a = b
    · rw [execFunction_of_beq_taken ho hab]; rfl
    · rw [execFunction_of_beq_not_taken ho hab]; rfl
  | nop | add | sub => simp [execFunction, ho]

theorem execFunction_alu_of_no_result (h : i.op = .nop ∨ i.op = .beq) :
    (execFunction i idx a b).alu = 0#32 := by
  obtain ho | ho := h
  · rw [execFunction_of_nop ho]; rfl
  · by_cases hab : a = b
    · rw [execFunction_of_beq_taken ho hab]; rfl
    · rw [execFunction_of_beq_not_taken ho hab]; rfl

end

/-! ### Each latch after a cycle: a bubble, or an instruction with its data -/

section
variable (s : State)

/-- The instruction in EX/MEM after a cycle: the one of ID/EX with its results, or a bubble. -/
theorem ruleExMem_cases :
    (s.cur.idex.valid = false ∧ ruleExMem s = ExMemLatch.invalid) ∨
    (s.cur.idex.valid = true ∧ ∃ r, execFunction s.cur.idex.ins.ins s.cur.idex.ins.idx
        (operandA s.cur.idex.ins.ins.ra s) (operandB s.cur.idex.ins.ins.rb s) = r ∧
      ruleExMem s = ⟨true, s.cur.idex.ins, r.alu, r.sdata, r.taken, r.target⟩) := by
  cases hv : s.cur.idex.valid with
  | false => exact .inl ⟨rfl, ruleExMem_of_invalid hv⟩
  | true => exact .inr ⟨rfl, _, rfl, ruleExMem_of_execFunction hv rfl⟩

/-- The instruction in MEM/WB after a cycle: the one of EX/MEM, its load data 0 unless it is a lw, or a
bubble. -/
theorem ruleMemWb_cases :
    (s.cur.exmem.valid = false ∧ ruleMemWb s = MemWbLatch.invalid) ∨
    (s.cur.exmem.valid = true ∧ ∃ d, ruleMemWb s = ⟨true, s.cur.exmem.ins, s.cur.exmem.alu, d⟩ ∧
      (s.cur.exmem.ins.ins.op ≠ .lw → d = 0#32)) := by
  cases hv : s.cur.exmem.valid with
  | false => exact .inl ⟨rfl, ruleMemWb_of_invalid hv⟩
  | true =>
    by_cases hop : s.cur.exmem.ins.ins.op = .lw
    · exact .inr ⟨rfl, _, ruleMemWb_of_lw hv hop, fun hne => absurd hop hne⟩
    · exact .inr ⟨rfl, _, ruleMemWb_of_ne_lw hv hop, fun _ => rfl⟩

/-- The instruction in ID/EX after a cycle: the one of IF/ID with the registers as read after Writeback, or a
bubble. -/
theorem ruleIdEx_cases :
    (ruleIdEx s = IdExLatch.invalid ∧
      (s.cur.ifid.valid = false ∨ stallSignal s = true ∨ ruleTaken s = true)) ∨
    (s.cur.ifid.valid = true ∧ stallSignal s = false ∧ ruleTaken s = false ∧
      ruleIdEx s = ⟨true, s.cur.ifid.ins, readReg (ruleRegs s) s.cur.ifid.ins.ins.ra,
        readReg (ruleRegs s) s.cur.ifid.ins.ins.rb⟩) := by
  by_cases hbubble : s.cur.ifid.valid = false ∨ stallSignal s = true ∨ ruleTaken s = true
  · exact .inl ⟨ruleIdEx_of_bubble hbubble, hbubble⟩
  · simp only [not_or, Bool.not_eq_false, Bool.not_eq_true] at hbubble
    obtain ⟨hv, hs, ht⟩ := hbubble
    exact .inr ⟨hv, hs, ht, ruleIdEx_of_decode hv hs ht⟩

/-- What Fetch leaves in `pc` and IF/ID: a redirect, a hold, the instruction at `pc`, or nothing (R119 to
R121). -/
theorem ruleFetch_cases :
    (ruleTaken s = true ∧ rulePc s = ruleTarget s ∧ ruleIfId s = IfIdLatch.invalid) ∨
    (ruleTaken s = false ∧ stallSignal s = true ∧ rulePc s = s.pc ∧ ruleIfId s = s.cur.ifid) ∨
    (ruleTaken s = false ∧ stallSignal s = false ∧ ∃ i, fetchAt s.prog s.pc = some i ∧
      (0 ≤ s.pc ∧ s.pc < s.prog.length) ∧ rulePc s = s.pc + 1 ∧ ruleIfId s = ⟨true, ⟨i, s.pc⟩⟩) ∨
    (ruleTaken s = false ∧ stallSignal s = false ∧ (s.pc < 0 ∨ (s.prog.length : Int) ≤ s.pc) ∧
      rulePc s = s.pc ∧ ruleIfId s = IfIdLatch.invalid) := by
  cases ht : ruleTaken s with
  | true => exact .inl ⟨rfl, ruleFetch_of_taken ht⟩
  | false =>
    cases hs : stallSignal s with
    | true => exact .inr (.inl ⟨rfl, rfl, ruleFetch_of_stall ht hs⟩)
    | false =>
      by_cases hout : s.pc < 0 ∨ (s.prog.length : Int) ≤ s.pc
      · exact .inr (.inr (.inr ⟨rfl, rfl, hout, ruleFetch_of_outside ht hs hout⟩))
      · have h0 : 0 ≤ s.pc := by omega
        have h1 : s.pc.toNat < s.prog.length := by omega
        exact .inr (.inr (.inl ⟨rfl, rfl, _, fetchAt_of_inside h0 h1, by omega,
          ruleFetch_of_inside ht hs h0 h1⟩))

end

/-- A stall means that IF/ID and ID/EX both hold an instruction (R115). -/
theorem valid_of_stall {s : State} (h : stallSignal s = true) :
    s.cur.ifid.valid = true ∧ s.cur.idex.valid = true := by
  obtain ⟨hifid, hidex, -⟩ := (loadUse_iff _ _).mp h
  exact ⟨hifid, hidex⟩

/-- So there is none with a bubble in either. -/
theorem no_stall_of_invalid {s : State} (h : s.cur.ifid.valid = false ∨ s.cur.idex.valid = false) :
    stallSignal s = false := by
  rw [← Bool.not_eq_true]
  intro hs
  obtain ⟨hifid, hidex⟩ := valid_of_stall hs
  simp [hifid, hidex] at h

/-! ### The form of the latches -/

/-- After a cycle every invalid latch holds the bubble, whatever the latches held before it. -/
theorem bubbled_ruleLatches (s : State) : Bubbled (ruleLatches s) := by
  refine ⟨fun hv => ?_, fun hv => ?_, fun hv => ?_, fun hv => ?_⟩ <;> dsimp only [ruleLatches] at hv ⊢
  · obtain ⟨-, -, h⟩ | ⟨-, hs, -, h⟩ | ⟨-, -, i, -, -, -, h⟩ | ⟨-, -, -, -, h⟩ := ruleFetch_cases s
    · exact h
    · rw [h, (valid_of_stall hs).1] at hv
      cases hv
    · rw [h] at hv
      cases hv
    · exact h
  · obtain ⟨h, -⟩ | ⟨-, -, -, h⟩ := ruleIdEx_cases s
    · exact h
    · rw [h] at hv
      cases hv
  · obtain ⟨-, h⟩ | ⟨-, r, -, h⟩ := ruleExMem_cases s
    · exact h
    · rw [h] at hv
      cases hv
  · obtain ⟨-, h⟩ | ⟨-, d, h, -⟩ := ruleMemWb_cases s
    · exact h
    · rw [h] at hv
      cases hv

/-- The undefined fields of EX/MEM after a cycle come from the execute function. -/
theorem ruleExMem_undefinedFields (s : State) :
    ((ruleExMem s).valid = true → (ruleExMem s).taken = true → (ruleExMem s).ins.ins.op = .beq) ∧
    ((ruleExMem s).taken = false → (ruleExMem s).target = 0) ∧
    ((ruleExMem s).valid = true → (ruleExMem s).ins.ins.op ≠ .lw → (ruleExMem s).ins.ins.op ≠ .sw →
      (ruleExMem s).sdata = 0#32) ∧
    ((ruleExMem s).valid = true → ((ruleExMem s).ins.ins.op = .nop ∨ (ruleExMem s).ins.ins.op = .beq) →
      (ruleExMem s).alu = 0#32) := by
  obtain ⟨-, h⟩ | ⟨-, r, rfl, h⟩ := ruleExMem_cases s <;> rw [h]
  · simp [ExMemLatch.invalid]
  · exact ⟨fun _ ht => (execFunction_taken_iff.mp ht).1, execFunction_target_of_not_taken,
      fun _ => execFunction_sdata_of_no_access, fun _ => execFunction_alu_of_no_result⟩

/-- The undefined fields of MEM/WB after a cycle: the ALU result comes from EX/MEM. -/
theorem ruleMemWb_undefinedFields {s : State} (hs : UndefinedFieldsZero s.cur) :
    ((ruleMemWb s).valid = true → (ruleMemWb s).ins.ins.op ≠ .lw → (ruleMemWb s).ldata = 0#32) ∧
    ((ruleMemWb s).valid = true → ((ruleMemWb s).ins.ins.op = .nop ∨ (ruleMemWb s).ins.ins.op = .beq) →
      (ruleMemWb s).alu = 0#32) := by
  obtain ⟨-, -, -, halu, -, -⟩ := hs
  obtain ⟨-, h⟩ | ⟨hv, d, h, hd⟩ := ruleMemWb_cases s <;> rw [h]
  · simp [MemWbLatch.invalid]
  · exact ⟨fun _ => hd, fun _ => halu hv⟩

/-- A cycle keeps the undefined fields 0. -/
theorem undefinedFieldsZero_ruleLatches {s : State} (hs : UndefinedFieldsZero s.cur) :
    UndefinedFieldsZero (ruleLatches s) := by
  obtain ⟨htaken, htarget, hsdata, halu⟩ := ruleExMem_undefinedFields s
  exact ⟨htaken, htarget, hsdata, halu, ruleMemWb_undefinedFields hs⟩

/-- Settles O41: latch by latch from the lines of R123; the commit empties the next latches. -/
theorem stepKeepsTheFormOfTheLatches : Obligations.StepKeepsTheFormOfTheLatches := by
  intro s t hbubbled hundefined hsettled hstep
  obtain ⟨-, rfl⟩ | ⟨-, rfl⟩ := step_cases hstep
  · exact ⟨hbubbled, hundefined, hsettled⟩
  · exact ⟨bubbled_ruleLatches s, undefinedFieldsZero_ruleLatches hundefined, rfl, rfl⟩

end Sys2Proof.Machine
end

section
/-! SUPPORT. The pipeline against the program: what the instructions in EX/MEM and MEM/WB are about to leave,
that forwarding reads exactly that, and that a cycle executes the one instruction in ID/EX. -/

namespace Sys2Proof.Machine

open Sys2Proof.Safety

/-! ### What the executed instructions in flight are about to leave -/

/-- A register once MEM/WB has written back: what MEM/WB forwards for it, or what it was. -/
theorem readReg_afterMemWb (l : MemWbLatch) (x : Vector Word 32) (r : Reg) :
    readReg (afterMemWb l x) r =
      if forwardsFromMemWb l r then writebackValue l else readReg x r := by
  unfold afterMemWb forwardsFromMemWb
  cases l.valid <;> cases writesReg l.ins.ins.op <;>
    simp [readReg_writeReg, eq_comm (a := r)]

/-- EX/MEM is about to load register `r` from memory: the one value that it cannot forward yet (R110). -/
def loadsInto (l : ExMemLatch) (r : Reg) : Prop :=
  l.valid = true ∧ l.ins.ins.op = .lw ∧ l.ins.ins.rd ≠ 0#5 ∧ l.ins.ins.rd = r

/-- A register once EX/MEM has completed: what EX/MEM forwards for it, or what it was, but for a load. -/
theorem readReg_afterExMem {l : ExMemLatch} {r : Reg} (h : ¬ loadsInto l r) (a : Arch) :
    readReg (afterExMem l a).regs r =
      if forwardsFromExMem l r then l.alu else readReg a.regs r := by
  cases hv : l.valid with
  | false => simp [afterExMem, forwardsFromExMem, hv]
  | true =>
    cases ho : l.ins.ins.op with
    | nop | sw | beq => simp [afterExMem, forwardsFromExMem, isArith, hv, ho]
    | add | sub =>
      simp [afterExMem, forwardsFromExMem, isArith, hv, ho, readReg_writeReg, eq_comm (a := r)]
    | lw =>
      have hne : ¬ (l.ins.ins.rd ≠ 0#5 ∧ r = l.ins.ins.rd) := fun ⟨hrd, hr⟩ =>
        h ⟨hv, ho, hrd, hr.symm⟩
      simp only [afterExMem, forwardsFromExMem, isArith, hv, ho, readReg_writeReg, hne, if_true, if_false,
        Bool.and_false, Bool.false_and, Bool.false_eq_true]

/-- Forwarding is complete (R130): on a value read from the registers it gives what the register holds once
MEM/WB and EX/MEM have completed, but for a load in EX/MEM. -/
theorem forward_eq_readReg_afterExMem {l : Latches} {r : Reg} (h : ¬ loadsInto l.exmem r)
    (x : Vector Word 32) (m : Memory) (pc : Int) :
    forward l r (readReg x r) =
      readReg (afterExMem l.exmem { regs := afterMemWb l.memwb x, mem := m, pc := pc }).regs r := by
  rw [readReg_afterExMem h, readReg_afterMemWb]
  rfl

/-- A bubble in EX/MEM leaves nothing. -/
theorem afterExMem_of_invalid {l : ExMemLatch} (h : l.valid = false) (a : Arch) : afterExMem l a = a := by
  simp [afterExMem, h]

/-- A bubble in MEM/WB leaves nothing. -/
theorem afterMemWb_of_invalid {l : MemWbLatch} (h : l.valid = false) (x : Vector Word 32) :
    afterMemWb l x = x := by
  simp [afterMemWb, h]

/-! ### One cycle: MEM/WB retires and EX/MEM moves on -/

/-- The Writeback of a cycle is what MEM/WB was about to leave (R102). -/
theorem ruleRegs_eq_afterMemWb (s : State) : ruleRegs s = afterMemWb s.cur.memwb s.regs := by
  have hvalue : (if s.cur.memwb.ins.ins.op = .lw then s.cur.memwb.ldata else s.cur.memwb.alu) =
      writebackValue s.cur.memwb := by
    cases ho : s.cur.memwb.ins.ins.op <;> simp [writebackValue, ho]
  by_cases hrd : s.cur.memwb.ins.ins.rd = 0#5
  · rw [ruleRegs_of_no_write (.inr (.inr hrd))]
    simp [afterMemWb, hrd]
  · simp [ruleRegs, afterMemWb, hvalue, hrd]

/-- After a cycle, the instruction that moved from EX/MEM to MEM/WB has left in memory what it was about to,
and is about to write back what it was about to (R104 to R106). -/
theorem afterExMem_eq_rule (s : State) (x : Vector Word 32) (pc : Int) :
    afterExMem s.cur.exmem { regs := x, mem := s.mem, pc := pc } =
      { regs := afterMemWb (ruleMemWb s) x, mem := ruleMem s, pc := pc } := by
  cases hv : s.cur.exmem.valid with
  | false =>
    rw [afterExMem_of_invalid hv, ruleMemWb_of_invalid hv, ruleMem_of_no_store (.inl hv)]
    rfl
  | true =>
    cases ho : s.cur.exmem.ins.ins.op <;>
      simp [afterExMem, afterMemWb, ruleMemWb, ruleMem, writebackValue, writesReg, hv, ho]

/-- What the instructions older than the one in ID/EX leave is the same before and after a cycle; the cycle
adds what the one in ID/EX leaves. -/
theorem archView_ruleStep (s : State) : archView (ruleStep s) =
    afterExMem (ruleExMem s) { archView s with pc := nextIndex (ruleStep s) } := by
  have hview : archView s =
      { regs := afterMemWb (ruleMemWb s) (ruleRegs s), mem := ruleMem s, pc := nextIndex s } := by
    rw [ruleRegs_eq_afterMemWb]
    exact afterExMem_eq_rule s _ _
  rw [hview]
  rfl

/-- The next position in program order is no part of what EX/MEM leaves. -/
@[simp] theorem archView_pc (s : State) : (archView s).pc = nextIndex s := by
  unfold archView
  rw [afterExMem_eq_rule]

/-! ### Coherence -/

/-- A cycle leaves the program's records in IF/ID. -/
theorem fromProgram_ruleIfId {s : State} (h : FromProgram s s.cur.ifid.valid s.cur.ifid.ins) :
    FromProgram s (ruleIfId s).valid (ruleIfId s).ins := by
  obtain ⟨-, -, hf⟩ | ⟨-, -, -, hf⟩ | ⟨-, -, i, hi, -, -, hf⟩ | ⟨-, -, -, -, hf⟩ := ruleFetch_cases s <;>
    rw [hf]
  · exact nofun
  · exact h
  · exact fun _ => hi
  · exact nofun

/-- A cycle leaves the program's records in ID/EX. -/
theorem fromProgram_ruleIdEx {s : State} (h : FromProgram s s.cur.ifid.valid s.cur.ifid.ins) :
    FromProgram s (ruleIdEx s).valid (ruleIdEx s).ins := by
  obtain ⟨hd, -⟩ | ⟨hv, -, -, hd⟩ := ruleIdEx_cases s <;> rw [hd]
  · exact nofun
  · exact fun _ => h hv

/-- A cycle keeps the program order of the instructions not yet executed, whatever Fetch does. -/
theorem inProgramOrder_ruleStep {s : State} (h : InProgramOrder s) : InProgramOrder (ruleStep s) := by
  obtain ⟨hifid, -, -⟩ := h
  unfold InProgramOrder
  dsimp only [ruleStep, ruleLatches]
  obtain ⟨ht, -, hf⟩ | ⟨-, hs, hpc, hf⟩ | ⟨-, -, i, -, -, hpc, hf⟩ | ⟨-, -, -, hpc, hf⟩ :=
    ruleFetch_cases s
  · rw [hf, ruleIdEx_of_bubble (.inr (.inr ht))]
    exact ⟨nofun, nofun, nofun⟩
  · rw [hf, hpc, ruleIdEx_of_bubble (.inr (.inl hs))]
    exact ⟨hifid, nofun, nofun⟩
  · rw [hf, hpc]
    refine ⟨fun _ => rfl, fun hd _ => ?_, nofun⟩
    obtain ⟨hbubble, -⟩ | ⟨hv, -, -, hdecode⟩ := ruleIdEx_cases s
    · rw [hbubble] at hd
      cases hd
    · rw [hdecode]
      exact hifid hv
  · rw [hf, hpc]
    refine ⟨nofun, nofun, fun hd _ => ?_⟩
    obtain ⟨hbubble, -⟩ | ⟨hv, -, -, hdecode⟩ := ruleIdEx_cases s
    · rw [hbubble] at hd
      cases hd
    · rw [hdecode]
      exact hifid hv

/-- Without a stall, a register that the instruction in IF/ID uses is not the one that the instruction in
ID/EX is about to load: the interlock covers the one gap of forwarding (R115, R116). -/
theorem not_loadsInto_ruleExMem {s : State} (hv : s.cur.ifid.valid = true) (hs : stallSignal s = false)
    {r : Reg} (hr : (usesA s.cur.ifid.ins.ins.op = true ∧ s.cur.ifid.ins.ins.ra = r) ∨
      (usesB s.cur.ifid.ins.ins.op = true ∧ s.cur.ifid.ins.ins.rb = r)) :
    ¬ loadsInto (ruleExMem s) r := by
  rintro ⟨hvalid, hop, hrd, rfl⟩
  obtain ⟨-, hx⟩ | ⟨hidex, _, -, hx⟩ := ruleExMem_cases s <;> rw [hx] at hvalid hop hrd hr
  · cases hvalid
  · have hstall : stallSignal s = true := (loadUse_iff _ _).mpr ⟨hv, hidex, hop, hrd, hr⟩
    rw [hs] at hstall
    cases hstall

/-- A cycle leaves complete forwarding for the instruction that it decodes: the operands were read from the
registers after this cycle's Writeback, and there was no stall. -/
theorem operandsCurrent_ruleStep (s : State) : OperandsCurrent (ruleStep s) := by
  intro hvalid
  have hcases := ruleIdEx_cases s
  unfold operandA operandB archView
  dsimp only [ruleStep, ruleLatches] at hvalid ⊢
  obtain ⟨hd, -⟩ | ⟨hv, hs, -, hd⟩ := hcases
  · rw [hd] at hvalid
    cases hvalid
  · rw [hd]
    exact ⟨fun hu => forward_eq_readReg_afterExMem (l := ruleLatches s)
        (not_loadsInto_ruleExMem hv hs (.inl ⟨hu, rfl⟩)) _ _ _,
      fun hu => forward_eq_readReg_afterExMem (l := ruleLatches s)
        (not_loadsInto_ruleExMem hv hs (.inr ⟨hu, rfl⟩)) _ _ _⟩

/-- A cycle keeps the pipeline coherent. -/
theorem coherent_ruleStep {s : State} (h : Coherent s) : Coherent (ruleStep s) := by
  obtain ⟨hifid, -, horder, -⟩ := h
  exact ⟨fromProgram_ruleIfId hifid, fromProgram_ruleIdEx hifid, inProgramOrder_ruleStep horder,
    operandsCurrent_ruleStep s⟩

/-- Settles O42: the records, the order and the operands, each from what the cycle fetched and decoded. -/
theorem stepKeepsThePipelineCoherent : Obligations.StepKeepsThePipelineCoherent := by
  intro s t hcoherent hstep
  obtain ⟨-, rfl⟩ | ⟨-, rfl⟩ := step_cases hstep
  · exact hcoherent
  · exact coherent_ruleStep hcoherent

/-! ### One instruction in program order -/

/-- The position after a cycle, read from the latches that the cycle fills. -/
theorem nextIndex_ruleStep_eq (s : State) : nextIndex (ruleStep s) =
    if (ruleIdEx s).valid then (ruleIdEx s).ins.idx
    else if (ruleIfId s).valid then (ruleIfId s).ins.idx else rulePc s := rfl

/-- The position after a cycle: the branch target when the branch was taken; otherwise one more than the
instruction that was executed, or the same when none was. -/
theorem nextIndex_ruleStep {s : State} (h : InProgramOrder s) : nextIndex (ruleStep s) =
    if ruleTaken s then ruleTarget s
    else if s.cur.idex.valid then nextIndex s + 1 else nextIndex s := by
  obtain ⟨-, hboth, honly⟩ := h
  rw [nextIndex_ruleStep_eq, nextIndex]
  obtain ⟨ht, hpc, hf⟩ | ⟨ht, hs, hpc, hf⟩ | ⟨ht, hs, i, -, -, hpc, hf⟩ | ⟨ht, hs, -, hpc, hf⟩ :=
    ruleFetch_cases s
  · rw [hf, hpc, ruleIdEx_of_bubble (.inr (.inr ht)), ht]
    rfl
  · obtain ⟨hv, hidex⟩ := valid_of_stall hs
    rw [hf, hpc, ruleIdEx_of_bubble (.inr (.inl hs)), ht]
    simp [IdExLatch.invalid, hv, hidex, hboth hidex hv]
  all_goals
    rw [hf, hpc, ht]
    cases hv : s.cur.ifid.valid with
    | true =>
      rw [ruleIdEx_of_decode hv hs ht]
      cases hidex : s.cur.idex.valid with
      | true => simp [hboth hidex hv]
      | false => simp
    | false =>
      rw [ruleIdEx_of_bubble (.inl hv)]
      cases hidex : s.cur.idex.valid with
      | true => simp [IdExLatch.invalid, IfIdLatch.invalid, honly hidex hv]
      | false => simp [IdExLatch.invalid, IfIdLatch.invalid]

/-- The position after an instruction executed in program order (R191). -/
theorem archExec_pc (i : Instr) (a : Arch) : (archExec i a).pc =
    if i.op = .beq ∧ readReg a.regs i.ra = readReg a.regs i.rb then branchTarget a.pc i.imm
    else a.pc + 1 := by
  cases i <;> simp [archExec, Instr.op, Instr.ra, Instr.rb, Instr.imm]

/-- An instruction with its results in EX/MEM is about to leave what it leaves in program order, if its
results were computed from the registers' values. -/
theorem afterExMem_of_execFunction (i : Instr) (idx : Int) (arch : Arch) {a b : Word}
    (ha : usesA i.op = true → a = readReg arch.regs i.ra)
    (hb : usesB i.op = true → b = readReg arch.regs i.rb) :
    afterExMem ⟨true, ⟨i, idx⟩, (execFunction i idx a b).alu, (execFunction i idx a b).sdata,
        (execFunction i idx a b).taken, (execFunction i idx a b).target⟩
      { arch with pc := (archExec i arch).pc } = archExec i arch := by
  cases i with
  | nop | beq => rfl
  | add | sub =>
    obtain rfl := ha rfl
    obtain rfl := hb rfl
    rfl
  | lw =>
    obtain rfl := ha rfl
    rfl
  | sw =>
    obtain rfl := ha rfl
    obtain rfl := hb rfl
    rfl

/-- In a coherent pipeline a branch is taken on the registers' values in program order (R114, R190). -/
theorem ruleTaken_iff_of_operandsCurrent {s : State} (ho : OperandsCurrent s)
    (hv : s.cur.idex.valid = true) : ruleTaken s = true ↔ s.cur.idex.ins.ins.op = .beq ∧
      readReg (archView s).regs s.cur.idex.ins.ins.ra =
        readReg (archView s).regs s.cur.idex.ins.ins.rb := by
  obtain ⟨hA, hB⟩ := ho hv
  rw [ruleTaken_iff]
  constructor
  · rintro ⟨-, hop, heq⟩
    rw [hop] at hA hB
    exact ⟨hop, (hA rfl).symm.trans (heq.trans (hB rfl))⟩
  · rintro ⟨hop, heq⟩
    rw [hop] at hA hB
    exact ⟨hv, hop, (hA rfl).trans (heq.trans (hB rfl).symm)⟩

/-- A taken branch goes to its target (R191). -/
theorem ruleTarget_of_taken {s : State} (h : ruleTaken s = true) :
    ruleTarget s = branchTarget s.cur.idex.ins.idx s.cur.idex.ins.ins.imm := by
  obtain ⟨hv, hop, hab⟩ := ruleTaken_iff.mp h
  rw [ruleTarget, ruleExMem_of_execFunction hv (execFunction_of_beq_taken hop hab)]
  rfl

/-- With an instruction in ID/EX, the next position is the one that this instruction leads to. -/
theorem nextIndex_ruleStep_of_valid {s : State} (hc : Coherent s) (hv : s.cur.idex.valid = true) :
    nextIndex (ruleStep s) = (archExec s.cur.idex.ins.ins (archView s)).pc := by
  obtain ⟨-, -, horder, hoperands⟩ := hc
  have htaken := ruleTaken_iff_of_operandsCurrent hoperands hv
  rw [nextIndex_ruleStep horder, archExec_pc, archView_pc]
  by_cases ht : ruleTaken s = true
  · have hindex : nextIndex s = s.cur.idex.ins.idx := if_pos hv
    rw [if_pos ht, if_pos (htaken.mp ht), ruleTarget_of_taken ht, hindex]
  · rw [if_neg ht, if_neg (fun h => ht (htaken.mpr h)), if_pos hv]

/-- A cycle of a coherent pipeline executes the instruction in ID/EX, the next one in program order. -/
theorem archView_ruleStep_of_valid {s : State} (hc : Coherent s) (hv : s.cur.idex.valid = true) :
    archView (ruleStep s) = archStep s.prog (archView s) := by
  have hnext := nextIndex_ruleStep_of_valid hc hv
  obtain ⟨-, hidex, -, hoperands⟩ := hc
  obtain ⟨hA, hB⟩ := hoperands hv
  have hfetch : fetchAt s.prog (archView s).pc = some s.cur.idex.ins.ins := by
    rw [archView_pc, nextIndex, if_pos hv]
    exact hidex hv
  rw [archView_ruleStep, archStep, hfetch, hnext, ruleExMem_of_execFunction hv rfl]
  exact afterExMem_of_execFunction s.cur.idex.ins.ins s.cur.idex.ins.idx (archView s) hA hB

/-- With a bubble in ID/EX, a cycle executes nothing. -/
theorem archView_ruleStep_of_invalid {s : State} (ho : InProgramOrder s)
    (hv : s.cur.idex.valid = false) : archView (ruleStep s) = archView s := by
  have hnext : nextIndex (ruleStep s) = (archView s).pc := by
    rw [nextIndex_ruleStep ho, ruleTaken_of_invalid hv, hv, archView_pc]
    rfl
  rw [archView_ruleStep, hnext, ruleExMem_of_invalid hv]
  exact afterExMem_of_invalid rfl _

/-- Settles O45: a finished state has nothing in ID/EX; a cycle executes what ID/EX holds. -/
theorem cycleExecutesOneInstructionInOrder : Obligations.CycleExecutesOneInstructionInOrder := by
  intro s t hcoherent hstep
  obtain ⟨hdone, rfl⟩ | ⟨-, rfl⟩ := step_cases hstep
  · obtain ⟨-, -, hidex, -⟩ := (done_iff t).mp hdone
    simp [hidex]
  · cases hv : s.cur.idex.valid with
    | true => exact archView_ruleStep_of_valid hcoherent hv
    | false =>
      obtain ⟨-, -, horder, -⟩ := hcoherent
      exact archView_ruleStep_of_invalid horder hv

end Sys2Proof.Machine
end

section
/-! SUPPORT. Runs: what holds after any number of steps, by one induction, and the run loop. -/

namespace Sys2Proof.Machine

open Sys2Proof.Safety

/-! ### Any number of steps -/

/-- Every step answers a next state (R200). -/
theorem step_next (s : State) : ∃ t, step s = .next t := by
  cases hd : done s with
  | true => exact ⟨s, step_of_done hd⟩
  | false => exact ⟨ruleStep s, step_of_not_done hd⟩

/-- The last of `n + 1` steps is a step of the state after `n`. -/
theorem steps_succ_of_steps {n : Nat} {s t : State} (h : steps n s = .next t) :
    steps (n + 1) s = step t := by
  induction n generalizing s with
  | zero =>
    cases h
    obtain ⟨u, hu⟩ := step_next t
    rw [steps_succ, hu]
    rfl
  | succ n ih =>
    obtain ⟨u, hu⟩ := step_next s
    rw [steps_succ, hu, andThen_next] at h ⊢
    exact ih h

/-- What holds at the start, and is kept by every step, holds after any number of steps. -/
theorem steps_invariant {P : Nat → State → Prop} {s : State} (hstart : P 0 s)
    (hstep : ∀ n t u, steps n s = .next t → P n t → step t = .next u → P (n + 1) u) (n : Nat) :
    ∃ t, steps n s = .next t ∧ P n t := by
  induction n with
  | zero => exact ⟨s, rfl, hstart⟩
  | succ n ih =>
    obtain ⟨t, hsteps, ht⟩ := ih
    obtain ⟨u, hu⟩ := step_next t
    exact ⟨u, (steps_succ_of_steps hsteps).trans hu, hstep n t u hsteps ht hu⟩

/-- Settles O28: the induction over the steps, with nothing to keep. -/
theorem theEngineNeverFails : Obligations.TheEngineNeverFails := by
  intro s n
  obtain ⟨t, ht, -⟩ := steps_invariant (P := fun _ _ => True) (s := s) trivial
    (fun _ _ _ _ _ _ => trivial) n
  exact ⟨t, ht⟩

/-! ### The cycle counter (R40) -/

/-- After `n` steps from `start`, in state `t`, `cycles` counts those that were asked of an unfinished run. -/
def CountsCycles (start : State) (n : Nat) (t : State) : Prop :=
  t.cycles ≤ n ∧ (done t = false → t.cycles = n) ∧ steps t.cycles start = .next t ∧
    ∀ m u, m < t.cycles → steps m start = .next u → done u = false

/-- A step keeps the count: a finished run stands still, an unfinished one counts the cycle. -/
theorem countsCycles_step {start t u : State} {n : Nat} (hsteps : steps n start = .next t)
    (h : CountsCycles start n t) (hstep : step t = .next u) : CountsCycles start (n + 1) u := by
  obtain ⟨hle, hrunning, hreach, hbefore⟩ := h
  obtain ⟨hdone, rfl⟩ | ⟨hdone, rfl⟩ := step_cases hstep
  · refine ⟨by omega, fun hd => ?_, hreach, hbefore⟩
    rw [hdone] at hd
    cases hd
  · have hcycles : (ruleStep t).cycles = n + 1 := congrArg (· + 1) (hrunning hdone)
    rw [CountsCycles, hcycles]
    refine ⟨le_refl _, fun _ => rfl, (steps_succ_of_steps hsteps).trans hstep, fun m v hm hv => ?_⟩
    obtain hlt | rfl := Nat.lt_succ_iff_lt_or_eq.mp hm
    · exact hbefore m v (by rw [hrunning hdone]; exact hlt) hv
    · rw [hsteps] at hv
      cases hv
      exact hdone

/-- Settles O29: a cycle adds 1, and the count is kept from the launch, where it is 0. -/
theorem cyclesCountFromReset : Obligations.CyclesCountFromReset := by
  refine ⟨fun s h => ⟨ruleStep s, step_of_not_done h, rfl⟩, fun prog memInit regInit n => ?_⟩
  refine steps_invariant (P := CountsCycles (launch prog memInit regInit)) ?_
    (fun _ _ _ hsteps ht hstep => countsCycles_step hsteps ht hstep) n
  exact ⟨le_refl 0, fun _ => rfl, rfl, fun m u hm => absurd hm (Nat.not_lt_zero m)⟩

/-! ### The run loop (R124, R125) -/

/-- A run loop that is asked of a finished state reports at once. -/
theorem run_of_done {s : State} (h : done s = true) (fuel : Nat) : run fuel s = some (results s, []) := by
  cases fuel <;> simp [run, h]

/-- Otherwise it makes one cycle and runs on, with that cycle's entry in front. -/
theorem run_of_not_done {s : State} (h : done s = false) (fuel : Nat) : run (fuel + 1) s =
    (run fuel (ruleStep s)).map fun p => (p.1, ruleTrace s :: p.2) := by
  simp only [run, h, step_of_not_done h]
  rfl

/-- The first step of a run that is not over. -/
theorem steps_succ_of_not_done {s : State} (h : done s = false) (n : Nat) :
    steps (n + 1) s = steps n (ruleStep s) := by
  rw [steps_succ, step_of_not_done h, andThen_next]

/-- Consecutive numbers from `a + 1` on: the first, and those from `a + 2` on. -/
theorem map_range_succ_count (a n : Nat) : (List.range (n + 1)).map (fun k => a + 1 + k) =
    (a + 1) :: (List.range n).map (fun k => a + 1 + 1 + k) := by
  rw [List.range_succ_eq_map, List.map_cons, List.map_map]
  congr 1
  exact List.map_congr_left fun k _ => by simp only [Function.comp_apply]; omega

/-- The report `r` and the trace `es` are those of the run from `s`: of the first finished state, with one
entry for each cycle before it, numbered one after another. -/
def ReportsRun (s : State) (r : Results) (es : List TraceEntry) : Prop :=
  ∃ t, steps es.length s = .next t ∧ done t = true ∧ r = results t ∧
    (∀ k u, k < es.length → steps k s = .next u → done u = false) ∧
    es.map TraceEntry.cycle = (List.range es.length).map (fun k => s.cycles + 1 + k)

/-- A finished state reports itself, with no entry. -/
theorem reportsRun_of_done {s : State} (h : done s = true) : ReportsRun s (results s) [] :=
  ⟨s, rfl, h, rfl, fun k _ hk => absurd hk (Nat.not_lt_zero k), rfl⟩

/-- One cycle more at the front of a run is one entry more at the front of its trace. -/
theorem reportsRun_cons {s : State} (hd : done s = false) {r : Results} {es : List TraceEntry}
    (h : ReportsRun (ruleStep s) r es) : ReportsRun s r (ruleTrace s :: es) := by
  obtain ⟨t, hsteps, hdone, hresults, hbefore, hcount⟩ := h
  refine ⟨t, (steps_succ_of_not_done hd _).trans hsteps, hdone, hresults, fun k u hk hu => ?_, ?_⟩
  · cases k with
    | zero =>
      cases hu
      exact hd
    | succ k =>
      rw [steps_succ_of_not_done hd] at hu
      exact hbefore k u (Nat.lt_of_succ_lt_succ hk) hu
  · rw [List.length_cons, map_range_succ_count, List.map_cons, hcount]
    rfl

/-- Settles O32, by induction on the fuel: at once when the run is over, otherwise one cycle first. -/
theorem runReportsOneEntryPerCycle : Obligations.RunReportsOneEntryPerCycle := by
  intro fuel s r es hrun
  change ReportsRun s r es
  induction fuel generalizing s es with
  | zero =>
    cases hd : done s with
    | true =>
      rw [run_of_done hd] at hrun
      cases hrun
      exact reportsRun_of_done hd
    | false => simp [run, hd] at hrun
  | succ fuel ih =>
    cases hd : done s with
    | true =>
      rw [run_of_done hd] at hrun
      cases hrun
      exact reportsRun_of_done hd
    | false =>
      rw [run_of_not_done hd, Option.map_eq_some_iff] at hrun
      obtain ⟨⟨r', es'⟩, hrest, heq⟩ := hrun
      cases heq
      exact reportsRun_cons hd (ih _ _ hrest)

/-! ### The sequential result (R239, R240) -/

/-- The last of `n + 1` instructions in program order. -/
theorem archRun_succ (prog : List Instr) (n : Nat) (a : Arch) :
    archRun prog (n + 1) a = archStep prog (archRun prog n a) := by
  induction n generalizing a with
  | zero => rfl
  | succ n ih => exact ih (archStep prog a)

/-- How many instructions have been executed, retired ones and those still in flight. -/
def executedCount (s : State) : Nat := s.retired + executedInFlight s

/-- EX/MEM holds an instruction after a cycle when ID/EX held one. -/
theorem ruleExMem_valid (s : State) : (ruleExMem s).valid = s.cur.idex.valid := by
  obtain ⟨hv, h⟩ | ⟨hv, r, -, h⟩ := ruleExMem_cases s <;> rw [hv, h]; rfl

/-- MEM/WB holds an instruction after a cycle when EX/MEM held one. -/
theorem ruleMemWb_valid (s : State) : (ruleMemWb s).valid = s.cur.exmem.valid := by
  obtain ⟨hv, h⟩ | ⟨hv, d, h, -⟩ := ruleMemWb_cases s <;> rw [hv, h]; rfl

/-- A cycle retires the instruction in MEM/WB, if there is one. -/
theorem ruleRetired_eq (s : State) : ruleRetired s = s.retired + s.cur.memwb.valid.toNat := by
  cases hv : s.cur.memwb.valid with
  | true => exact ruleRetired_of_valid hv
  | false => exact ruleRetired_of_invalid hv

/-- A cycle executes one instruction when ID/EX holds one. -/
theorem executedCount_ruleStep (s : State) :
    executedCount (ruleStep s) = executedCount s + s.cur.idex.valid.toNat := by
  simp only [executedCount, executedInFlight, ruleStep, ruleLatches, ruleExMem_valid, ruleMemWb_valid,
    ruleRetired_eq]
  omega

/-- The executed instructions have left what as many instructions in program order leave. -/
def ComputesSequentially (prog : List Instr) (start : Arch) (s : State) : Prop :=
  Coherent s ∧ s.prog = prog ∧ archView s = archRun prog (executedCount s) start

/-- A step executes the next instruction in program order, or none. -/
theorem computesSequentially_step {prog : List Instr} {start : Arch} {s t : State}
    (h : ComputesSequentially prog start s) (hstep : step s = .next t) :
    ComputesSequentially prog start t := by
  obtain ⟨hcoherent, hprog, hview⟩ := h
  obtain ⟨-, rfl⟩ | ⟨-, rfl⟩ := step_cases hstep
  · exact ⟨hcoherent, hprog, hview⟩
  · refine ⟨coherent_ruleStep hcoherent, hprog, ?_⟩
    rw [executedCount_ruleStep]
    cases hv : s.cur.idex.valid with
    | true =>
      rw [archView_ruleStep_of_valid hcoherent hv, hprog, hview]
      exact (archRun_succ prog _ start).symm
    | false =>
      obtain ⟨-, -, horder, -⟩ := hcoherent
      rw [archView_ruleStep_of_invalid horder hv, hview]
      rfl

/-- Nothing in flight is coherent with any program. -/
theorem coherent_of_empty {s : State} (h : s.cur = Latches.empty) : Coherent s := by
  unfold Coherent FromProgram InProgramOrder OperandsCurrent
  rw [h]
  exact ⟨nofun, nofun, ⟨nofun, nofun, nofun⟩, nofun⟩

/-- With nothing in flight, the state that the executed instructions leave is the state itself. -/
theorem archView_of_nothing_in_flight {s : State} (hifid : s.cur.ifid.valid = false)
    (hidex : s.cur.idex.valid = false) (hexmem : s.cur.exmem.valid = false)
    (hmemwb : s.cur.memwb.valid = false) :
    archView s = { regs := s.regs, mem := s.mem, pc := s.pc } := by
  rw [archView, afterExMem_of_invalid hexmem, afterMemWb_of_invalid hmemwb]
  simp [nextIndex, hidex, hifid]

/-- Settles O46: the launch has executed nothing; every step keeps the correspondence; and in a finished
state nothing is in flight. -/
theorem runsComputeTheSequentialResult : Obligations.RunsComputeTheSequentialResult := by
  intro prog memInit regInit n start
  obtain ⟨t, hsteps, -, -, hview⟩ := steps_invariant (s := launch prog memInit regInit)
    (P := fun _ t => ComputesSequentially prog start t)
    ⟨coherent_of_empty rfl, rfl, archView_of_nothing_in_flight rfl rfl rfl rfl⟩
    (fun _ _ _ _ ht hstep => computesSequentially_step ht hstep) n
  refine ⟨t, hsteps, hview, fun hdone => ?_⟩
  obtain ⟨-, hifid, hidex, hexmem, hmemwb⟩ := (done_iff t).mp hdone
  have hcount : executedCount t = t.retired := by
    simp [executedCount, executedInFlight, hexmem, hmemwb]
  rw [archView_of_nothing_in_flight hifid hidex hexmem hmemwb, hcount] at hview
  rw [← hview]
  exact ⟨rfl, rfl, rfl⟩

end Sys2Proof.Machine
end

section
/-! SUPPORT. One instruction through the pipeline: the three cycles after it stands in ID/EX, and what each
operation leaves in its register, its cell or `pc`. -/

namespace Sys2Proof.Machine

open Sys2Proof.Safety

/-! ### The three cycles -/

/-- The state that two cycles leave. -/
def secondCycle (s : State) : State := ruleStep (ruleStep s)

/-- The state that three cycles leave. -/
def thirdCycle (s : State) : State := ruleStep (secondCycle s)

/-- A run with an instruction in flight is not over (R124). -/
theorem not_done_of_valid {s : State} (h : s.cur.idex.valid = true ∨ s.cur.exmem.valid = true ∨
    s.cur.memwb.valid = true) : done s = false := by
  rw [← Bool.not_eq_true, done_iff]
  rintro ⟨-, -, hidex, hexmem, hmemwb⟩
  simp [hidex, hexmem, hmemwb] at h

section
variable {s : State}

/-- A valid instruction in EX/MEM is in MEM/WB a cycle later, with its ALU result. -/
theorem ruleMemWb_of_valid (hv : s.cur.exmem.valid = true) :
    (ruleMemWb s).valid = true ∧ (ruleMemWb s).ins = s.cur.exmem.ins ∧
      (ruleMemWb s).alu = s.cur.exmem.alu := by
  obtain ⟨hinvalid, -⟩ | ⟨-, d, h, -⟩ := ruleMemWb_cases s
  · rw [hv] at hinvalid
    cases hinvalid
  · rw [h]
    exact ⟨rfl, rfl, rfl⟩

/-- What Execute leaves of the instruction in ID/EX. -/
def executedResult (s : State) : ExecResult :=
  execFunction s.cur.idex.ins.ins s.cur.idex.ins.idx
    (operandA s.cur.idex.ins.ins.ra s) (operandB s.cur.idex.ins.ins.rb s)

/-- One cycle on, the instruction of ID/EX is in EX/MEM with its results. -/
theorem ruleStep_exmem (hv : s.cur.idex.valid = true) : (ruleStep s).cur.exmem =
    ⟨true, s.cur.idex.ins, (executedResult s).alu, (executedResult s).sdata, (executedResult s).taken,
      (executedResult s).target⟩ :=
  ruleExMem_of_execFunction hv rfl

/-- The instruction of ID/EX is in EX/MEM one cycle on. -/
theorem ruleStep_exmem_valid (hv : s.cur.idex.valid = true) : (ruleStep s).cur.exmem.valid = true := by
  rw [ruleStep_exmem hv]

/-- Two cycles on, the instruction of ID/EX is in MEM/WB with its ALU result. -/
theorem secondCycle_memwb (hv : s.cur.idex.valid = true) : (secondCycle s).cur.memwb.valid = true ∧
    (secondCycle s).cur.memwb.ins = s.cur.idex.ins ∧
    (secondCycle s).cur.memwb.alu = (executedResult s).alu := by
  have h := ruleMemWb_of_valid (ruleStep_exmem_valid hv)
  rw [ruleStep_exmem hv] at h
  exact h

/-- With an instruction in ID/EX, the next three steps are cycles. -/
theorem three_steps (hv : s.cur.idex.valid = true) : step s = .next (ruleStep s) ∧
    step (ruleStep s) = .next (secondCycle s) ∧ step (secondCycle s) = .next (thirdCycle s) := by
  obtain ⟨hmemwb, -⟩ := secondCycle_memwb hv
  exact ⟨step_of_not_done (not_done_of_valid (.inl hv)),
    step_of_not_done (not_done_of_valid (.inr (.inl (ruleStep_exmem_valid hv)))),
    step_of_not_done (not_done_of_valid (.inr (.inr hmemwb)))⟩

/-- The third cycle retires the instruction (R103). -/
theorem thirdCycle_retired (hv : s.cur.idex.valid = true) :
    (thirdCycle s).retired = (secondCycle s).retired + 1 :=
  ruleRetired_of_valid (secondCycle_memwb hv).1

/-- The second cycle stores nothing, unless the instruction is a sw (R106). -/
theorem secondCycle_mem (hv : s.cur.idex.valid = true) (hop : s.cur.idex.ins.ins.op ≠ .sw) :
    (secondCycle s).mem = (ruleStep s).mem := by
  refine ruleMem_of_no_store (.inr ?_)
  rw [ruleStep_exmem hv]
  exact hop

/-- The third cycle writes no register, unless the operation does (R102). -/
theorem thirdCycle_regs_of_no_write (hv : s.cur.idex.valid = true)
    (hop : writesReg s.cur.idex.ins.ins.op = false) :
    (thirdCycle s).regs = (secondCycle s).regs := by
  obtain ⟨-, hins, -⟩ := secondCycle_memwb hv
  exact ruleRegs_of_no_write (.inr (.inl (by rw [hins, hop])))

/-- The third cycle writes the writeback value of a register-writing operation (R102). -/
theorem thirdCycle_regs_of_write (hv : s.cur.idex.valid = true)
    (hop : writesReg s.cur.idex.ins.ins.op = true) : (thirdCycle s).regs =
      writeReg (secondCycle s).regs s.cur.idex.ins.ins.rd (writebackValue (secondCycle s).cur.memwb) := by
  obtain ⟨hvalid, hins, -⟩ := secondCycle_memwb hv
  calc (thirdCycle s).regs = afterMemWb (secondCycle s).cur.memwb (secondCycle s).regs :=
        ruleRegs_eq_afterMemWb (secondCycle s)
    _ = _ := by simp [afterMemWb, hvalid, hins, hop]

/-! ### add and sub -/

/-- An add or sub writes back its ALU result. -/
theorem writebackValue_of_isArith (hv : s.cur.idex.valid = true)
    (hop : isArith s.cur.idex.ins.ins.op = true) :
    writebackValue (secondCycle s).cur.memwb = (executedResult s).alu := by
  obtain ⟨-, hins, halu⟩ := secondCycle_memwb hv
  have hne : (secondCycle s).cur.memwb.ins.ins.op ≠ .lw := by
    rw [hins]
    intro hlw
    rw [hlw] at hop
    cases hop
  rw [writebackValue_of_ne_lw hne, halu]

/-- A register after the third cycle, for a register-writing operation: `rd` has the writeback value, every
other register and register 0 are as before. -/
theorem thirdCycle_readReg (hv : s.cur.idex.valid = true)
    (hop : writesReg s.cur.idex.ins.ins.op = true) :
    (s.cur.idex.ins.ins.rd ≠ 0#5 → readReg (thirdCycle s).regs s.cur.idex.ins.ins.rd =
      writebackValue (secondCycle s).cur.memwb) ∧
    (∀ q : Reg, q ≠ s.cur.idex.ins.ins.rd ∨ q = 0#5 →
      readReg (thirdCycle s).regs q = readReg (secondCycle s).regs q) := by
  rw [thirdCycle_regs_of_write hv hop]
  refine ⟨fun hrd => readReg_writeReg_same _ hrd _, ?_⟩
  rintro q (hq | rfl)
  · exact readReg_writeReg_other _ hq _
  · rw [readReg_zero, readReg_zero]

end

/-- Settles O33: the execute function's sum or difference is what the third cycle writes. -/
theorem arithmeticReachesItsRegister : Obligations.ArithmeticReachesItsRegister := by
  intro s rd ra rb imm hv hi a b
  obtain ⟨hfirst, hsecond, hthird⟩ := three_steps hv
  have harith : isArith s.cur.idex.ins.ins.op = true := by
    obtain hi | hi := hi <;> rw [hi] <;> rfl
  have hwrites := writesReg_of_isArith harith
  have hrd : s.cur.idex.ins.ins.rd = rd := by
    obtain hi | hi := hi <;> rw [hi] <;> rfl
  have hsw : s.cur.idex.ins.ins.op ≠ .sw := by
    obtain hi | hi := hi <;> rw [hi] <;> exact nofun
  obtain ⟨hvalue, hframe⟩ := thirdCycle_readReg hv hwrites
  rw [hrd, writebackValue_of_isArith hv harith] at hvalue
  rw [hrd] at hframe
  refine ⟨_, _, _, hfirst, hsecond, hthird, fun hne hadd => ?_, fun hne hsub => ?_, hframe,
    secondCycle_mem hv hsw, thirdCycle_retired hv⟩
  · have hresult : (executedResult s).alu = a + b := by
      rw [executedResult, hadd]
      rfl
    rw [hvalue hne, hresult, BitVec.toInt_add]
  · have hresult : (executedResult s).alu = a - b := by
      rw [executedResult, hsub]
      rfl
    rw [hvalue hne, hresult, BitVec.toInt_sub]

/-! ### lw and sw -/

/-- The effective address is the integer sum of base and displacement, modulo 2^32 (R170). -/
theorem effectiveAddress_eq_ofInt (base : Word) (imm : Imm) :
    effectiveAddress base imm = BitVec.ofInt 32 (base.toInt + imm.toInt) := by
  rw [effectiveAddress, sext32, BitVec.ofInt_add, BitVec.ofInt_toInt]
  rfl

section
variable {s : State}

/-- The address and the store data that Execute leaves of a lw or sw (R113). -/
theorem executedResult_of_access (hop : s.cur.idex.ins.ins.op = .lw ∨ s.cur.idex.ins.ins.op = .sw) :
    executedResult s = .access
      (effectiveAddress (operandA s.cur.idex.ins.ins.ra s) s.cur.idex.ins.ins.imm)
      (operandB s.cur.idex.ins.ins.rb s) :=
  execFunction_of_access hop

/-- A lw writes back the word at its effective address, as the second cycle's Memory step finds it (R105). -/
theorem writebackValue_of_lw_in_idex (hv : s.cur.idex.valid = true)
    (hop : s.cur.idex.ins.ins.op = .lw) : writebackValue (secondCycle s).cur.memwb =
      memRead (ruleStep s).mem
        (effectiveAddress (operandA s.cur.idex.ins.ins.ra s) s.cur.idex.ins.ins.imm) := by
  have hmemwb : (secondCycle s).cur.memwb = _ :=
    ruleMemWb_of_lw (ruleStep_exmem_valid hv) (by rw [ruleStep_exmem hv]; exact hop)
  rw [ruleStep_exmem hv, executedResult_of_access (.inl hop)] at hmemwb
  rw [hmemwb]
  exact writebackValue_of_lw hop

end

/-- Settles O34: the load data of the second cycle is what the third writes. -/
theorem loadReachesItsRegister : Obligations.LoadReachesItsRegister := by
  intro s rd ra rb imm hv hi ea
  obtain ⟨hfirst, hsecond, hthird⟩ := three_steps hv
  have hop : s.cur.idex.ins.ins.op = .lw := by rw [hi]; rfl
  obtain ⟨hvalue, hframe⟩ := thirdCycle_readReg hv (by rw [hop]; rfl)
  rw [writebackValue_of_lw_in_idex hv hop, effectiveAddress_eq_ofInt] at hvalue
  rw [hi] at hvalue hframe
  exact ⟨_, _, _, hfirst, hsecond, hthird, hvalue, hframe,
    secondCycle_mem hv (by rw [hop]; exact nofun), thirdCycle_retired hv⟩

/-- Settles O35: the second cycle stores what Execute captured, at the address that it computed. -/
theorem storeReachesItsCell : Obligations.StoreReachesItsCell := by
  intro s rd ra rb imm hwf hv hi ea
  obtain ⟨hfirst, hsecond, hthird⟩ := three_steps hv
  have hop : s.cur.idex.ins.ins.op = .sw := by rw [hi]; rfl
  have hmem : (secondCycle s).mem = memWrite (ruleStep s).mem ea (operandB rb s) := by
    have hstore : (secondCycle s).mem = _ :=
      ruleMem_of_sw (ruleStep_exmem_valid hv) (by rw [ruleStep_exmem hv]; exact hop)
    rw [ruleStep_exmem hv, executedResult_of_access (.inr hop), hi] at hstore
    rw [hstore]
    exact congrArg (memWrite _ · _) (effectiveAddress_eq_ofInt (operandA ra s) imm)
  refine ⟨_, _, _, hfirst, hsecond, hthird, ?_, fun a ha => ?_,
    thirdCycle_regs_of_no_write hv (by rw [hop]; rfl), thirdCycle_retired hv⟩
  · have hwf' : (ruleStep s).mem.wf = true := wf_ruleMem hwf
    rw [hmem, memRead_memWrite hwf', if_pos rfl]
  · rw [hmem, memRead_memWrite_other _ _ ha]

/-- Settles O37: the store of the first cycle is what the lw's Memory step finds in the second. -/
theorem loadSeesTheStoreBeforeIt : Obligations.LoadSeesTheStoreBeforeIt := by
  intro s rd ra rb imm hwf hstore hsw hv hi haddress
  obtain ⟨hfirst, hsecond, hthird⟩ := three_steps hv
  have hop : s.cur.idex.ins.ins.op = .lw := by rw [hi]; rfl
  obtain ⟨hvalue, -⟩ := thirdCycle_readReg hv (by rw [hop]; rfl)
  rw [writebackValue_of_lw_in_idex hv hop, hi] at hvalue
  refine ⟨_, _, _, hfirst, hsecond, hthird, fun hrd => ?_⟩
  have hmem : (ruleStep s).mem = memWrite s.mem s.cur.exmem.alu s.cur.exmem.sdata :=
    ruleMem_of_sw hstore hsw
  calc readReg (thirdCycle s).regs rd
      = memRead (ruleStep s).mem (effectiveAddress (operandA ra s) imm) := hvalue hrd
    _ = s.cur.exmem.sdata := by rw [haddress, hmem, memRead_memWrite hwf, if_pos rfl]

/-! ### beq -/

section
variable {s : State}

/-- A beq is taken on equal forwarded operands (R190). -/
theorem ruleTaken_of_beq (hv : s.cur.idex.valid = true) {rd ra rb : Reg} {imm : Imm}
    (hi : s.cur.idex.ins.ins = .beq rd ra rb imm) :
    ruleTaken s = true ↔ operandA ra s = operandB rb s := by
  rw [ruleTaken_iff, hi]
  exact ⟨fun ⟨_, _, h⟩ => h, fun h => ⟨hv, rfl, h⟩⟩

/-- A stall needs a lw in ID/EX (R115). -/
theorem no_stall_of_ne_lw (h : s.cur.idex.ins.ins.op ≠ .lw) : stallSignal s = false := by
  rw [← Bool.not_eq_true]
  intro hs
  obtain ⟨-, -, hlw, -⟩ := (loadUse_iff _ _).mp hs
  exact h hlw

/-- A taken branch leaves `pc` at its target, and ID/EX and IF/ID empty. -/
theorem ruleStep_of_taken (ht : ruleTaken s = true) :
    (ruleStep s).pc = branchTarget s.cur.idex.ins.idx s.cur.idex.ins.ins.imm ∧
      (ruleStep s).cur.idex = IdExLatch.invalid ∧ (ruleStep s).cur.ifid = IfIdLatch.invalid := by
  obtain ⟨hpc, hifid⟩ := ruleFetch_of_taken ht
  exact ⟨hpc.trans (ruleTarget_of_taken ht), ruleIdEx_of_bubble (.inr (.inr ht)), hifid⟩

/-- With no branch taken and no stall, the instruction in IF/ID, if any, moves to ID/EX. -/
theorem ruleIdEx_of_flow (ht : ruleTaken s = false) (hs : stallSignal s = false) :
    (ruleIdEx s).valid = s.cur.ifid.valid ∧
      (s.cur.ifid.valid = true → (ruleIdEx s).ins = s.cur.ifid.ins) := by
  cases hv : s.cur.ifid.valid with
  | false =>
    rw [ruleIdEx_of_bubble (.inl hv)]
    exact ⟨rfl, nofun⟩
  | true =>
    rw [ruleIdEx_of_decode hv hs ht]
    exact ⟨rfl, fun _ => rfl⟩

/-- With no branch taken and no stall, `pc` moves on by 1 inside the program and stays outside it. -/
theorem rulePc_of_flow (ht : ruleTaken s = false) (hs : stallSignal s = false) :
    rulePc s = if 0 ≤ s.pc ∧ s.pc < s.prog.length then s.pc + 1 else s.pc := by
  simp [rulePc, ht, hs]

end

/-- Settles O36: taken and not taken, and the retirement of an operation that writes nothing. -/
theorem branchRedirectsAndSquashes : Obligations.BranchRedirectsAndSquashes := by
  intro s rd ra rb imm hv hi
  obtain ⟨hfirst, hsecond, hthird⟩ := three_steps hv
  have hop : s.cur.idex.ins.ins.op = .beq := by rw [hi]; rfl
  have htaken := ruleTaken_of_beq hv hi
  refine ⟨_, _, _, hfirst, hsecond, hthird, fun heq => ?_, fun hne => ?_,
    secondCycle_mem hv (by rw [hop]; exact nofun), thirdCycle_regs_of_no_write hv (by rw [hop]; rfl),
    thirdCycle_retired hv⟩
  · obtain ⟨hpc, hidex, hifid⟩ := ruleStep_of_taken (htaken.mpr heq)
    rw [hi] at hpc
    exact ⟨hpc, by rw [hidex]; rfl, by rw [hifid]; rfl⟩
  · have ht : ruleTaken s = false := by
      rw [← Bool.not_eq_true, htaken]
      exact hne
    have hs := no_stall_of_ne_lw (s := s) (by rw [hop]; exact nofun)
    obtain ⟨hvalid, hins⟩ := ruleIdEx_of_flow ht hs
    exact ⟨hvalid, hins, rulePc_of_flow ht hs⟩

/-! ### The drain -/

/-- Nothing left to fetch, and nothing fetched or decoded: all that is left is to drain EX/MEM and MEM/WB. -/
def Draining (s : State) : Prop :=
  (s.pc < 0 ∨ (s.prog.length : Int) ≤ s.pc) ∧ s.cur.ifid.valid = false ∧ s.cur.idex.valid = false

/-- A cycle keeps a draining pipeline draining, and empties EX/MEM. -/
theorem draining_ruleStep {s : State} (h : Draining s) :
    Draining (ruleStep s) ∧ (ruleStep s).cur.exmem.valid = false := by
  obtain ⟨hout, hifid, hidex⟩ := h
  have ht := ruleTaken_of_invalid hidex
  have hs := no_stall_of_invalid (.inl hifid)
  obtain ⟨hpc, hfetch⟩ := ruleFetch_of_outside ht hs hout
  refine ⟨⟨?_, ?_, ?_⟩, ?_⟩ <;> dsimp only [ruleStep, ruleLatches]
  · rwa [hpc]
  · rw [hfetch]; rfl
  · rw [ruleIdEx_of_bubble (.inl hifid)]; rfl
  · rw [ruleExMem_of_invalid hidex]; rfl

/-- Settles O38: the taken branch leaves a draining pipeline; two cycles later MEM/WB is empty too. -/
theorem branchOutOfTheProgramEndsTheRun : Obligations.BranchOutOfTheProgramEndsTheRun := by
  intro s rd ra rb imm hv hi heq hout
  obtain ⟨hfirst, hsecond, hthird⟩ := three_steps hv
  obtain ⟨hpc, hidex, hifid⟩ := ruleStep_of_taken ((ruleTaken_of_beq hv hi).mpr heq)
  rw [hi] at hpc
  have hdrain : Draining (ruleStep s) := ⟨by rw [hpc]; exact hout, by rw [hifid]; rfl, by rw [hidex]; rfl⟩
  obtain ⟨hdrain', hexmem⟩ := draining_ruleStep hdrain
  obtain ⟨⟨hout'', hifid'', hidex''⟩, hexmem''⟩ := draining_ruleStep hdrain'
  have hmemwb'' : (thirdCycle s).cur.memwb.valid = false :=
    congrArg MemWbLatch.valid (ruleMemWb_of_invalid hexmem)
  exact ⟨_, _, _, hfirst, hsecond, hthird, not_done_of_valid (.inr (.inr (secondCycle_memwb hv).1)),
    (done_iff _).mpr ⟨hout'', hifid'', hidex'', hexmem'', hmemwb''⟩⟩

end Sys2Proof.Machine
end

section
/-! SUPPORT. The timing of branch-free programs (R242): how many cycles a run still needs, as a number that
every cycle lowers by one. -/

namespace Sys2Proof.Machine

open Sys2Proof.Safety

/-- What holds of a run of a branch-free program between its cycles: `pc` counts the instructions fetched,
and Fetch leaves no gap before `pc` reaches the end. -/
structure BranchFreeRun (s : State) : Prop where
  noBranch : ∀ i ∈ s.prog, i.op ≠ .beq
  coherent : Coherent s
  pc_nonneg : 0 ≤ s.pc
  pc_le : s.pc ≤ s.prog.length
  noGap : s.cur.ifid.valid = false → s.pc < s.prog.length → s.cur.idex.valid = false
  allFetched : (s.retired + s.cur.memwb.valid.toNat + s.cur.exmem.valid.toNat +
    s.cur.idex.valid.toNat + s.cur.ifid.valid.toNat : Int) = s.pc

/-- How many cycles pass from the last fetch, or from now when all is fetched, until the youngest instruction
has left the pipeline. -/
def drainCycles (s : State) : Nat :=
  if s.pc < s.prog.length ∨ s.cur.ifid.valid = true then 4
  else if s.cur.idex.valid = true then 3
  else if s.cur.exmem.valid = true then 2
  else if s.cur.memwb.valid = true then 1
  else 0

/-- The load-use pairs that are still to stall: those from the oldest unexecuted instruction on. -/
def pendingStalls (s : State) : Nat := loadUsePairs (s.prog.drop (nextIndex s).toNat)

/-- How many cycles a run of a branch-free program still needs. -/
def remainingCycles (s : State) : Nat :=
  (s.prog.length - s.pc).toNat + drainCycles s + pendingStalls s

/-! ### Stalls still to come -/

/-- The pairs from position `k` on: the first, and those from `k + 1` on. -/
theorem loadUsePairs_drop {prog : List Instr} {k : Nat} {i j : Instr} (hi : prog[k]? = some i)
    (hj : prog[k + 1]? = some j) :
    loadUsePairs (prog.drop k) = (stallsAfter i j).toNat + loadUsePairs (prog.drop (k + 1)) := by
  obtain ⟨hk, rfl⟩ := List.getElem?_eq_some_iff.mp hi
  obtain ⟨hk', rfl⟩ := List.getElem?_eq_some_iff.mp hj
  rw [List.drop_eq_getElem_cons hk, List.drop_eq_getElem_cons hk']
  rfl

/-- No pair starts at the last position, or behind it. -/
theorem loadUsePairs_drop_of_le {prog : List Instr} {k : Nat} (h : prog.length ≤ k + 1) :
    loadUsePairs (prog.drop k) = 0 := by
  have hlength : (prog.drop k).length ≤ 1 := by
    rw [List.length_drop]
    omega
  match hdrop : prog.drop k with
  | [] => rfl
  | [_] => rfl
  | _ :: _ :: _ => rw [hdrop] at hlength; simp at hlength

/-- A record that Fetch finds is in the program, at that index. -/
theorem getElem?_of_fetchAt {prog : List Instr} {pc : Int} {i : Instr} (h : fetchAt prog pc = some i) :
    0 ≤ pc ∧ prog[pc.toNat]? = some i := by
  unfold fetchAt at h
  split at h
  next h0 => exact ⟨h0, h⟩
  next => cases h

/-- The interlock compares the two instructions, whatever else the latches hold. -/
theorem stallSignal_of_valid {s : State} (hifid : s.cur.ifid.valid = true)
    (hidex : s.cur.idex.valid = true) :
    stallSignal s = stallsAfter s.cur.idex.ins.ins s.cur.ifid.ins.ins := by
  simp [stallSignal, stallsAfter, loadUse, hifid, hidex]

namespace BranchFreeRun

variable {s : State}

/-- No branch is taken. -/
theorem not_taken (h : BranchFreeRun s) : ruleTaken s = false := by
  rw [← Bool.not_eq_true]
  intro ht
  obtain ⟨hv, hop, -⟩ := ruleTaken_iff.mp ht
  obtain ⟨-, hidex, -, -⟩ := h.coherent
  obtain ⟨-, hget⟩ := getElem?_of_fetchAt (hidex hv)
  exact h.noBranch _ (List.mem_of_getElem? hget) hop

/-- The position moves on when an instruction is executed. -/
theorem nextIndex_ruleStep (h : BranchFreeRun s) :
    nextIndex (ruleStep s) = if s.cur.idex.valid then nextIndex s + 1 else nextIndex s := by
  obtain ⟨-, -, horder, -⟩ := h.coherent
  rw [Machine.nextIndex_ruleStep horder, h.not_taken]
  rfl

/-- A cycle that executes an instruction passes its pair, which was one of the pairs to count exactly when the
cycle stalls; every other cycle leaves the pairs as they are. -/
theorem pendingStalls_ruleStep (h : BranchFreeRun s) :
    pendingStalls s = (stallSignal s).toNat + pendingStalls (ruleStep s) := by
  unfold pendingStalls
  rw [h.nextIndex_ruleStep]
  obtain ⟨hfromIfid, hfromIdex, ⟨-, hboth, honly⟩, -⟩ := h.coherent
  cases hidex : s.cur.idex.valid with
  | false =>
    rw [no_stall_of_invalid (.inr hidex)]
    simp [ruleStep]
  | true =>
    have hindex : nextIndex s = s.cur.idex.ins.idx := if_pos hidex
    obtain ⟨h0, hget⟩ := getElem?_of_fetchAt (hfromIdex hidex)
    have hsucc : (s.cur.idex.ins.idx + 1).toNat = s.cur.idex.ins.idx.toNat + 1 := by omega
    rw [if_pos rfl, hindex, hsucc]
    cases hifid : s.cur.ifid.valid with
    | true =>
      obtain ⟨-, hget'⟩ := getElem?_of_fetchAt (hfromIfid hifid)
      rw [hboth hidex hifid, hsucc] at hget'
      rw [stallSignal_of_valid hifid hidex]
      exact loadUsePairs_drop hget hget'
    | false =>
      have hend : ¬ s.pc < s.prog.length := fun hlt => by
        rw [h.noGap hifid hlt] at hidex
        cases hidex
      have hpc := honly hidex hifid
      rw [no_stall_of_invalid (.inl hifid), loadUsePairs_drop_of_le (by omega)]
      have hbehind : s.prog.length ≤ s.cur.idex.ins.idx.toNat + 1 + 1 := by omega
      exact (loadUsePairs_drop_of_le hbehind).symm.trans (Nat.zero_add _).symm

/-- What a cycle does to `pc`, IF/ID and ID/EX when no branch is taken: a stall, a fetch, or no more to
fetch. -/
theorem flow_cases (h : BranchFreeRun s) :
    (stallSignal s = true ∧ s.cur.ifid.valid = true ∧ s.cur.idex.valid = true ∧ rulePc s = s.pc ∧
      (ruleIfId s).valid = true ∧ (ruleIdEx s).valid = false) ∨
    (stallSignal s = false ∧ s.pc < s.prog.length ∧ rulePc s = s.pc + 1 ∧
      (ruleIfId s).valid = true ∧ (ruleIdEx s).valid = s.cur.ifid.valid) ∨
    (stallSignal s = false ∧ s.pc = s.prog.length ∧ rulePc s = s.pc ∧
      (ruleIfId s).valid = false ∧ (ruleIdEx s).valid = s.cur.ifid.valid) := by
  have hnonneg := h.pc_nonneg
  have hle := h.pc_le
  obtain ⟨ht, -⟩ | ⟨-, hs, hpc, hf⟩ | ⟨ht, hs, i, -, ⟨-, hlt⟩, hpc, hf⟩ | ⟨ht, hs, hout, hpc, hf⟩ :=
    ruleFetch_cases s
  · rw [h.not_taken] at ht
    cases ht
  · obtain ⟨hifid, hidex⟩ := valid_of_stall hs
    refine .inl ⟨hs, hifid, hidex, hpc, by rw [hf, hifid], ?_⟩
    rw [ruleIdEx_of_bubble (.inr (.inl hs))]
    rfl
  · exact .inr (.inl ⟨hs, hlt, hpc, by rw [hf], (ruleIdEx_of_flow ht hs).1⟩)
  · exact .inr (.inr ⟨hs, by omega, hpc, by rw [hf]; rfl, (ruleIdEx_of_flow ht hs).1⟩)

/-- A cycle keeps the form of the run. -/
theorem ruleStep (h : BranchFreeRun s) : BranchFreeRun (ruleStep s) where
  noBranch := h.noBranch
  coherent := coherent_ruleStep h.coherent
  pc_nonneg := by
    have hnonneg := h.pc_nonneg
    obtain ⟨-, -, -, hpc, -⟩ | ⟨-, -, hpc, -⟩ | ⟨-, -, hpc, -⟩ := h.flow_cases <;>
      simp only [Machine.ruleStep, hpc] <;> omega
  pc_le := by
    have hle := h.pc_le
    obtain ⟨-, -, -, hpc, -⟩ | ⟨-, hlt, hpc, -⟩ | ⟨-, -, hpc, -⟩ := h.flow_cases <;>
      simp only [Machine.ruleStep, hpc] <;> omega
  noGap := by
    simp only [Machine.ruleStep, ruleLatches]
    obtain ⟨-, -, -, -, -, hidex⟩ | ⟨-, -, -, hifid, -⟩ | ⟨-, hend, hpc, -⟩ := h.flow_cases
    · exact fun _ _ => hidex
    · rw [hifid]
      exact nofun
    · rw [hpc, hend]
      exact fun _ hlt => absurd hlt (lt_irrefl _)
  allFetched := by
    have hcount := h.allFetched
    simp only [Machine.ruleStep, ruleLatches, ruleRetired_eq, ruleMemWb_valid, ruleExMem_valid]
    obtain ⟨-, hv, hv', hpc, hifid, hidex⟩ | ⟨-, -, hpc, hifid, hidex⟩ | ⟨-, -, hpc, hifid, hidex⟩ :=
      h.flow_cases
    · rw [hpc, hifid, hidex, ← hcount, hv, hv']
      push_cast
      simp only [Bool.toNat_true, Bool.toNat_false]
      omega
    all_goals
      rw [hpc, hifid, hidex]
      push_cast
      simp only [Bool.toNat_true, Bool.toNat_false]
      omega

/-! ### The cycles still needed -/

/-- A run is over exactly when nothing is left to fetch, to drain or to stall. -/
theorem done_iff_remainingCycles (h : BranchFreeRun s) : done s = true ↔ remainingCycles s = 0 := by
  have hle := h.pc_le
  rw [done_iff, remainingCycles]
  constructor
  · rintro ⟨hout, hifid, hidex, hexmem, hmemwb⟩
    have hend : s.pc = s.prog.length := by
      have hnonneg := h.pc_nonneg
      omega
    have hindex : nextIndex s = s.prog.length := by simp [nextIndex, hidex, hifid, hend]
    have hstalls : pendingStalls s = 0 := by
      rw [pendingStalls, hindex]
      exact loadUsePairs_drop_of_le (by omega)
    simp [hstalls, drainCycles, hend, hifid, hidex, hexmem, hmemwb]
  · intro hzero
    have hdrain : drainCycles s = 0 := by omega
    unfold drainCycles at hdrain
    split_ifs at hdrain with hfetch hidex hexmem hmemwb
    rw [not_or] at hfetch
    obtain ⟨hpc, hifid⟩ := hfetch
    exact ⟨.inr (by omega), by simpa using hifid, by simpa using hidex, by simpa using hexmem,
      by simpa using hmemwb⟩

/-- A cycle fetches one more instruction, or stalls, or, when all is fetched, moves the youngest instruction
in flight one stage on. -/
theorem fetchAndDrain_ruleStep (h : BranchFreeRun s) (hdone : done s = false) :
    (s.prog.length - s.pc).toNat + drainCycles s + (stallSignal s).toNat =
      (s.prog.length - rulePc s).toNat + drainCycles (Machine.ruleStep s) + 1 := by
  unfold drainCycles
  simp only [Machine.ruleStep, ruleLatches, ruleMemWb_valid, ruleExMem_valid]
  obtain ⟨hs, hv, -, hpc, hifid, -⟩ | ⟨hs, hlt, hpc, hifid, -⟩ | ⟨hs, hend, hpc, hifid, hidex⟩ :=
    h.flow_cases
  · simp [hs, hv, hpc, hifid]
  · simp only [hs, hlt, hpc, hifid, true_or, or_true, if_true, Bool.toNat_false]
    omega
  · have hinFlight : ¬ (s.cur.ifid.valid = false ∧ s.cur.idex.valid = false ∧
        s.cur.exmem.valid = false ∧ s.cur.memwb.valid = false) := fun hempty => by
      rw [(done_iff s).mpr ⟨.inr hend.ge, hempty⟩] at hdone
      cases hdone
    simp only [hpc, hs, hifid, hidex, hend]
    cases hf : s.cur.ifid.valid with
    | true => simp
    | false =>
      cases hd : s.cur.idex.valid with
      | true => simp
      | false =>
        cases hx : s.cur.exmem.valid with
        | true => simp
        | false =>
          cases hw : s.cur.memwb.valid with
          | true => simp
          | false => exact absurd ⟨hf, hd, hx, hw⟩ hinFlight

/-- Every cycle lowers the number of cycles still needed by one. -/
theorem remainingCycles_ruleStep (h : BranchFreeRun s) (hdone : done s = false) :
    remainingCycles s = remainingCycles (Machine.ruleStep s) + 1 := by
  have hfetch := h.fetchAndDrain_ruleStep hdone
  have hstalls := h.pendingStalls_ruleStep
  have hremaining : remainingCycles (Machine.ruleStep s) =
      (s.prog.length - rulePc s).toNat + drainCycles (Machine.ruleStep s) +
        pendingStalls (Machine.ruleStep s) := rfl
  rw [hremaining, remainingCycles]
  omega

/-- After the cycles that it still needs, a run is over, and it has executed that many. -/
theorem steps_remainingCycles {n : Nat} (h : BranchFreeRun s) (hn : remainingCycles s = n) :
    ∃ t, steps n s = .next t ∧ done t = true ∧ t.cycles = s.cycles + n ∧ BranchFreeRun t ∧
      t.prog = s.prog := by
  induction n generalizing s with
  | zero => exact ⟨s, rfl, h.done_iff_remainingCycles.mpr hn, rfl, h, rfl⟩
  | succ n ih =>
    have hdone : done s = false := by
      rw [← Bool.not_eq_true, h.done_iff_remainingCycles]
      omega
    have hremaining := h.remainingCycles_ruleStep hdone
    obtain ⟨t, hsteps, hover, hcycles, ht, hprog⟩ := ih h.ruleStep (by omega)
    refine ⟨t, (steps_succ_of_not_done hdone n).trans hsteps, hover, ?_, ht, hprog⟩
    rw [hcycles]
    exact Nat.succ_add_eq_add_succ s.cycles n

/-- When the run is over, every instruction of the program has retired. -/
theorem retired_of_done (h : BranchFreeRun s) (hdone : done s = true) :
    s.retired = s.prog.length := by
  have hcount := h.allFetched
  have hnonneg := h.pc_nonneg
  have hle := h.pc_le
  obtain ⟨hout, hifid, hidex, hexmem, hmemwb⟩ := (done_iff s).mp hdone
  rw [hifid, hidex, hexmem, hmemwb] at hcount
  simp only [Bool.toNat_false] at hcount
  omega

/-- The launch of a branch-free program starts such a run. -/
theorem of_launch {prog : List Instr} (h : ∀ i ∈ prog, i.op ≠ .beq) (memInit : List (Word × Word))
    (regInit : Vector Word 31) : BranchFreeRun (launch prog memInit regInit) where
  noBranch := h
  coherent := coherent_of_empty rfl
  pc_nonneg := le_refl 0
  pc_le := Int.natCast_nonneg prog.length
  noGap := fun _ _ => rfl
  allFetched := rfl

end BranchFreeRun

/-- The launch of `N` instructions, `N ≥ 1`, needs `N + 4` cycles and one for each load-use pair. -/
theorem remainingCycles_launch {prog : List Instr} (h : prog ≠ []) (memInit : List (Word × Word))
    (regInit : Vector Word 31) :
    remainingCycles (launch prog memInit regInit) = prog.length + 4 + loadUsePairs prog := by
  have hpositive := List.length_pos_iff.mpr h
  have hdrain : drainCycles (launch prog memInit regInit) = 4 :=
    if_pos (.inl (Int.natCast_pos.mpr hpositive))
  rw [remainingCycles, hdrain]
  rfl

/-- Settles O48: the launch needs that many cycles, and each of them lowers the number by one. -/
theorem branchFreeProgramsTakeTheirCycles : Obligations.BranchFreeProgramsTakeTheirCycles := by
  intro prog memInit regInit hne hbranchFree
  obtain ⟨t, hsteps, hdone, hcycles, ht, hprog⟩ :=
    (BranchFreeRun.of_launch hbranchFree memInit regInit).steps_remainingCycles
      (remainingCycles_launch hne memInit regInit)
  refine ⟨t, hsteps, hdone, hcycles.trans (Nat.zero_add _), ?_⟩
  rw [ht.retired_of_done hdone, hprog]
  rfl

end Sys2Proof.Machine
end

section
/-! SUPPORT. The program contract of the loader (R232), the launch and what a finished run reports. -/

namespace Sys2Proof.Machine

open Sys2Proof.Safety

/-! ### One raw record -/

/-- The contract of R232 for one raw record, as the statement about the loader writes it out. -/
def MeetsContract (r : RawRecord) : Prop :=
  (r.op = "nop" ∨ r.op = "add" ∨ r.op = "sub" ∨ r.op = "lw" ∨ r.op = "sw" ∨ r.op = "beq") ∧
  (0 ≤ r.rd ∧ r.rd ≤ 31) ∧ (0 ≤ r.ra ∧ r.ra ≤ 31) ∧ (0 ≤ r.rb ∧ r.rb ≤ 31) ∧
  (-32768 ≤ r.imm ∧ r.imm ≤ 32767)

/-- The record fields have the operation and the values of the raw record. -/
def HasFieldsOf (r : RawRecord) (i : Instr) : Prop :=
  i.op.mnemonic = r.op ∧ (i.rd.toNat : Int) = r.rd ∧ (i.ra.toNat : Int) = r.ra ∧
    (i.rb.toNat : Int) = r.rb ∧ i.imm.toInt = r.imm

/-- The three reasons to refuse the raw record at position `p`. -/
def RefusesRecord (p : Nat) (e : Refusal) : Prop :=
  e = .unknownOperation p ∨ e = .registerOutOfRange p ∨ e = .immediateOutOfRange p

/-- The six names are the mnemonics of the six operations (R71, R86). -/
theorem exists_mnemonic_iff (name : String) : (∃ o : Op, o.mnemonic = name) ↔
    name = "nop" ∨ name = "add" ∨ name = "sub" ∨ name = "lw" ∨ name = "sw" ∨ name = "beq" := by
  constructor
  · rintro ⟨o, rfl⟩
    cases o <;> decide
  · rintro (rfl | rfl | rfl | rfl | rfl | rfl)
    exacts [⟨.nop, rfl⟩, ⟨.add, rfl⟩, ⟨.sub, rfl⟩, ⟨.lw, rfl⟩, ⟨.sw, rfl⟩, ⟨.beq, rfl⟩]

/-- The contract in the loader's own terms. -/
theorem meetsContract_iff (r : RawRecord) : MeetsContract r ↔
    (∃ o : Op, o.mnemonic = r.op) ∧ r.registersInRange = true ∧ r.immediateInRange = true := by
  rw [exists_mnemonic_iff]
  simp only [MeetsContract, RawRecord.registersInRange, RawRecord.immediateInRange, decide_eq_true_eq,
    and_assoc]

/-- A record that meets the contract is loaded with its own fields (R70, R75). -/
theorem loadRecord_of_meetsContract {r : RawRecord} (h : MeetsContract r) (p : Nat) :
    ∃ i, loadRecord p r = .ok i ∧ HasFieldsOf r i := by
  obtain ⟨⟨o, ho⟩, hregisters, himmediate⟩ := (meetsContract_iff r).mp h
  obtain ⟨-, ⟨hrd, hrd'⟩, ⟨hra, hra'⟩, ⟨hrb, hrb'⟩, himm, himm'⟩ := h
  refine ⟨_, by simp [loadRecord, rawInstr, opOfName_eq_some.mpr ho, hregisters, himmediate]; rfl, ?_⟩
  simp only [HasFieldsOf, instrOf_op, instrOf_rd, instrOf_ra, instrOf_rb, instrOf_imm]
  exact ⟨ho, toNat_ofInt_register hrd hrd', toNat_ofInt_register hra hra',
    toNat_ofInt_register hrb hrb', toInt_ofInt_immediate himm himm'⟩

/-- A record outside the contract is refused for one of the three reasons (R232). -/
theorem loadRecord_of_not_meetsContract {r : RawRecord} (h : ¬ MeetsContract r) (p : Nat) :
    ∃ e, loadRecord p r = .error e ∧ RefusesRecord p e := by
  rw [meetsContract_iff] at h
  unfold loadRecord rawInstr
  cases hname : opOfName r.op with
  | none => exact ⟨_, rfl, .inl rfl⟩
  | some o =>
    dsimp only [Option.map_some]
    split_ifs with hregisters himmediate
    · exact absurd ⟨⟨o, opOfName_eq_some.mp hname⟩, hregisters, himmediate⟩ h
    · exact ⟨_, rfl, .inr (.inr rfl)⟩
    · exact ⟨_, rfl, .inr (.inl rfl)⟩

/-! ### A program of raw records -/

/-- A program whose records all meet the contract is loaded, record by record. -/
theorem loadRecords_of_meetsContract {raw : List RawRecord} (h : ∀ r ∈ raw, MeetsContract r) (p : Nat) :
    ∃ prog, loadRecords p raw = .ok prog ∧ List.Forall₂ HasFieldsOf raw prog := by
  induction raw generalizing p with
  | nil => exact ⟨[], rfl, .nil⟩
  | cons r rest ih =>
    rw [List.forall_mem_cons] at h
    obtain ⟨hr, hrest⟩ := h
    obtain ⟨i, hi, hfields⟩ := loadRecord_of_meetsContract hr p
    obtain ⟨prog, hprog, hall⟩ := ih hrest (p + 1)
    exact ⟨i :: prog, by simp [loadRecords, hi, hprog], .cons hfields hall⟩

/-- A program with a record outside the contract is refused, by the position of the first one (R83). -/
theorem loadRecords_of_not_meetsContract {raw : List RawRecord} (h : ¬ ∀ r ∈ raw, MeetsContract r)
    (p : Nat) : ∃ k < raw.length, ∃ e, loadRecords p raw = .error e ∧ RefusesRecord (p + k) e := by
  induction raw generalizing p with
  | nil => exact absurd (List.forall_mem_nil _) h
  | cons r rest ih =>
    by_cases hr : MeetsContract r
    · obtain ⟨i, hi, -⟩ := loadRecord_of_meetsContract hr p
      have hrest : ¬ ∀ r ∈ rest, MeetsContract r := fun hall =>
        h (List.forall_mem_cons.mpr ⟨hr, hall⟩)
      obtain ⟨k, hk, e, he, hreason⟩ := ih hrest (p + 1)
      rw [Nat.add_right_comm] at hreason
      exact ⟨k + 1, Nat.succ_lt_succ hk, e, by simp [loadRecords, hi, he], hreason⟩
    · obtain ⟨e, he, hreason⟩ := loadRecord_of_not_meetsContract hr p
      exact ⟨0, Nat.succ_pos _, e, by simp [loadRecords, he], hreason⟩

/-- Settles O6: the two directions of the loader, record by record. -/
theorem launchAcceptsExactlyTheContract : Obligations.LaunchAcceptsExactlyTheContract := by
  intro raw memInit regInit accepted
  refine ⟨fun h => ?_, fun h => ?_⟩
  · obtain ⟨prog, hprog, hfields⟩ := loadRecords_of_meetsContract h 0
    exact ⟨prog, by rw [launchRecords, hprog], hfields⟩
  · obtain ⟨p, hp, e, he, hreason⟩ := loadRecords_of_not_meetsContract h 0
    rw [Nat.zero_add] at hreason
    refine ⟨p, hp, ?_⟩
    simp only [launchRecords, he]
    obtain rfl | rfl | rfl := hreason
    · exact .inl rfl
    · exact .inr (.inl rfl)
    · exact .inr (.inr rfl)

/-! ### Launch and report -/

/-- An empty pipeline has the form of the latches. -/
theorem empty_latches_form : Bubbled Latches.empty ∧ UndefinedFieldsZero Latches.empty :=
  ⟨⟨fun _ => rfl, fun _ => rfl, fun _ => rfl, fun _ => rfl⟩,
    ⟨nofun, fun _ => rfl, nofun, nofun, nofun, nofun⟩⟩

/-- Settles O43: the registers and the memory from the launch parameters, the rest from the empty
pipeline. -/
theorem launchMeetsEveryInvariant : Obligations.LaunchMeetsEveryInvariant := by
  intro prog memInit regInit _
  obtain ⟨hbubbled, hundefined⟩ := empty_latches_form
  exact ⟨initialRegs_zero regInit, wf_initialMemory memInit, hbubbled, hundefined, ⟨rfl, rfl⟩,
    coherent_of_empty rfl⟩

/-- The run of an empty program is over at once (R124). -/
theorem done_reset : done State.reset = true :=
  (done_iff _).mpr ⟨.inr (le_refl 0), rfl, rfl, rfl, rfl⟩

/-- Settles O5: `State.reset` is that launch field by field, and a finished state answers itself. -/
theorem resetIsTheEmptyLaunch : Obligations.ResetIsTheEmptyLaunch :=
  ⟨rfl, done_reset, step_of_done done_reset⟩

/-- The CPI of a run that retired something is the exact quotient (R125). -/
theorem cpi_mul_retired {cycles retired : Nat} (h : retired ≠ 0) :
    cpi cycles retired * (retired : Rat) = (cycles : Rat) := by
  rw [cpi, if_neg h]
  exact div_mul_cancel₀ _ (Nat.cast_ne_zero.mpr h)

/-- Settles O31: each field of the report by its definition, the CPI by `cpi_mul_retired`. -/
theorem resultsReportTheState : Obligations.ResultsReportTheState := fun _ =>
  ⟨rfl, rfl, cpi_mul_retired, fun h => if_pos h, fun k => Vector.getElem_map _ k.isLt, rfl⟩

end Sys2Proof.Machine
end

section
/-! SUPPORT. Each instruction in each of the five stages, its frame, and how a cycle puts the stages
together. -/

namespace Sys2Proof.Machine

/-! ### What an instruction's meaning answers, stage by stage -/

/-- Writeback of a register-writing instruction, written out as one update of the state (R102, R103). -/
theorem exec_writeback_of_rd_ne {i : Instr} {s : State} {v : Word} (hs : s.stage = .writeback)
    (heffect : writebackEffect i s.cur.memwb s = retire (writeBack i.rd v s)) (hrd : i.rd ≠ 0#5) :
    exec i s =
      .next { s with regs := s.regs.set i.rd.toNat v i.rd.isLt, retired := s.retired + 1 } := by
  rw [exec_writeback i hs, heffect]
  simp [retire, writeBack, writeReg, hrd]

/-- With register 0 as its destination it only retires (R102, D26). -/
theorem exec_writeback_of_rd_zero {i : Instr} {s : State} {v : Word} (hs : s.stage = .writeback)
    (heffect : writebackEffect i s.cur.memwb s = retire (writeBack i.rd v s)) (hrd : i.rd = 0#5) :
    exec i s = .next { s with retired := s.retired + 1 } := by
  rw [exec_writeback i hs, heffect, hrd]
  simp [retire, writeBack]

/-- What a step of a cycle answers for the instruction in it: the operation of that step. -/
theorem exec_cases {i : Instr} {s t : State} (h : exec i s = .next t) :
    (s.stage = .fetch ∧ t = fetchStage i s) ∨
    (s.stage = .decode ∧ t = decodeStage i s) ∨
    (s.stage = .execute ∧ ∃ r, t = executeStage i r s) ∨
    (s.stage = .memory ∧ t = memoryEffect i s) ∨
    (s.stage = .writeback ∧ t = writebackEffect i s.cur.memwb s) := by
  cases hs : s.stage with
  | fetch =>
    rw [exec_fetch i hs] at h
    cases h
    exact .inl ⟨rfl, rfl⟩
  | decode =>
    rw [exec_decode i hs] at h
    cases h
    exact .inr (.inl ⟨rfl, rfl⟩)
  | execute =>
    rw [exec_execute i hs] at h
    cases h
    exact .inr (.inr (.inl ⟨rfl, _, rfl⟩))
  | memory =>
    rw [exec_memory i hs] at h
    cases h
    exact .inr (.inr (.inr (.inl ⟨rfl, rfl⟩)))
  | writeback =>
    rw [exec_writeback i hs] at h
    cases h
    exact .inr (.inr (.inr (.inr ⟨rfl, rfl⟩)))

/-- The Memory step latches the instruction of EX/MEM, with a store before it for a sw. -/
theorem memoryEffect_cases (i : Instr) (s : State) :
    (∃ d, memoryEffect i s = memoryStage i d s) ∨
      (i.op = .sw ∧ memoryEffect i s = memoryStage i 0#32 (storeData s)) := by
  cases i with
  | sw => exact .inr ⟨rfl, rfl⟩
  | nop | add | sub | lw | beq => exact .inl ⟨_, rfl⟩

/-- The Writeback step retires, with a write to `rd` before it for a register-writing operation. -/
theorem writebackEffect_cases (i : Instr) (l : MemWbLatch) (s : State) :
    writebackEffect i l s = retire s ∨
      (writesReg i.op = true ∧ ∃ v, writebackEffect i l s = retire (writeBack i.rd v s)) := by
  cases i with
  | nop | sw | beq => exact .inl rfl
  | add | sub | lw => exact .inr ⟨rfl, _, rfl⟩

section
variable {i : Instr} {s t : State}

/-- What no instruction changes, and what each changes in its own stage only (R100, R101). -/
theorem exec_frame (h : exec i s = .next t) :
    t.prog = s.prog ∧ t.cur = s.cur ∧ t.stage = s.stage ∧ t.cycles = s.cycles ∧ t.traceOut = s.traceOut ∧
    (s.stage ≠ .fetch → t.pc = s.pc) ∧ (s.stage ≠ .writeback → t.retired = s.retired) ∧
    (s.stage ≠ .fetch → t.nxt.ifid = s.nxt.ifid) ∧ (s.stage ≠ .decode → t.nxt.idex = s.nxt.idex) ∧
    (s.stage ≠ .execute → t.nxt.exmem = s.nxt.exmem) ∧
    (s.stage ≠ .memory → t.nxt.memwb = s.nxt.memwb) := by
  obtain ⟨hs, rfl⟩ | ⟨hs, rfl⟩ | ⟨hs, r, rfl⟩ | ⟨hs, rfl⟩ | ⟨hs, rfl⟩ := exec_cases h
  · simp [hs]
  · simp [hs]
  · simp [hs]
  · obtain ⟨d, heffect⟩ | ⟨-, heffect⟩ := memoryEffect_cases i s <;> rw [heffect] <;> simp [hs]
  · obtain heffect | ⟨-, v, heffect⟩ := writebackEffect_cases i s.cur.memwb s <;> rw [heffect] <;>
      simp [hs]

/-- What an instruction can do to the registers: nothing, or, in Writeback, a write to `rd`. -/
theorem exec_regs_cases (h : exec i s = .next t) :
    t.regs = s.regs ∨
      (s.stage = .writeback ∧ writesReg i.op = true ∧ ∃ v, t.regs = writeReg s.regs i.rd v) := by
  obtain ⟨hs, rfl⟩ | ⟨hs, rfl⟩ | ⟨hs, r, rfl⟩ | ⟨hs, rfl⟩ | ⟨hs, rfl⟩ := exec_cases h
  · exact .inl rfl
  · exact .inl rfl
  · exact .inl rfl
  · obtain ⟨d, heffect⟩ | ⟨-, heffect⟩ := memoryEffect_cases i s <;> rw [heffect] <;> exact .inl rfl
  · obtain heffect | ⟨hop, v, heffect⟩ := writebackEffect_cases i s.cur.memwb s <;> rw [heffect]
    · exact .inl rfl
    · exact .inr ⟨hs, hop, v, rfl⟩

/-- What an instruction can do to the memory: nothing, or, for a sw in the Memory step, the store. -/
theorem exec_mem_cases (h : exec i s = .next t) :
    t.mem = s.mem ∨
      (s.stage = .memory ∧ i.op = .sw ∧ t.mem = memWrite s.mem s.cur.exmem.alu s.cur.exmem.sdata) := by
  obtain ⟨hs, rfl⟩ | ⟨hs, rfl⟩ | ⟨hs, r, rfl⟩ | ⟨hs, rfl⟩ | ⟨hs, rfl⟩ := exec_cases h
  · exact .inl rfl
  · exact .inl rfl
  · exact .inl rfl
  · obtain ⟨d, heffect⟩ | ⟨hop, heffect⟩ := memoryEffect_cases i s <;> rw [heffect]
    · exact .inl rfl
    · exact .inr ⟨hs, hop, rfl⟩
  · obtain heffect | ⟨-, v, heffect⟩ := writebackEffect_cases i s.cur.memwb s <;> rw [heffect] <;>
      exact .inl rfl

/-- An operation that writes no register leaves them all. -/
theorem exec_regs_of_no_write (h : exec i s = .next t) (hop : writesReg i.op = false) :
    t.regs = s.regs := by
  obtain hsame | ⟨-, hw, -⟩ := exec_regs_cases h
  · exact hsame
  · rw [hop] at hw
    cases hw

/-- An operation that is not sw leaves the memory. -/
theorem exec_mem_of_no_store (h : exec i s = .next t) (hop : i.op ≠ .sw) : t.mem = s.mem := by
  obtain hsame | ⟨-, hsw, -⟩ := exec_mem_cases h
  · exact hsame
  · exact absurd hsw hop

end

/-! ### The instructions -/

/-- Settles O7: nop, by the operation of each stage. -/
theorem nopCompletesInEveryStage : Obligations.NopCompletesInEveryStage := fun rd ra rb imm _ =>
  ⟨exec_fetch (.nop rd ra rb imm), exec_decode (.nop rd ra rb imm), exec_execute (.nop rd ra rb imm),
    exec_memory (.nop rd ra rb imm), exec_writeback (.nop rd ra rb imm)⟩

/-- Settles O8: add, by the operation of each stage; the register write split by `rd`. -/
theorem addCompletesInEveryStage : Obligations.AddCompletesInEveryStage := fun rd ra rb imm _ =>
  ⟨exec_fetch (.add rd ra rb imm), exec_decode (.add rd ra rb imm), exec_execute (.add rd ra rb imm),
    exec_memory (.add rd ra rb imm), fun hs => exec_writeback_of_rd_ne (i := .add rd ra rb imm) hs rfl,
    fun hs => exec_writeback_of_rd_zero (i := .add rd ra rb imm) hs rfl⟩

/-- Settles O9: sub, by the operation of each stage; the register write split by `rd`. -/
theorem subCompletesInEveryStage : Obligations.SubCompletesInEveryStage := fun rd ra rb imm _ =>
  ⟨exec_fetch (.sub rd ra rb imm), exec_decode (.sub rd ra rb imm), exec_execute (.sub rd ra rb imm),
    exec_memory (.sub rd ra rb imm), fun hs => exec_writeback_of_rd_ne (i := .sub rd ra rb imm) hs rfl,
    fun hs => exec_writeback_of_rd_zero (i := .sub rd ra rb imm) hs rfl⟩

/-- Settles O10: lw, by the operation of each stage; the register write split by `rd`. -/
theorem lwCompletesInEveryStage : Obligations.LwCompletesInEveryStage := fun rd ra rb imm _ =>
  ⟨exec_fetch (.lw rd ra rb imm), exec_decode (.lw rd ra rb imm), exec_execute (.lw rd ra rb imm),
    exec_memory (.lw rd ra rb imm), fun hs => exec_writeback_of_rd_ne (i := .lw rd ra rb imm) hs rfl,
    fun hs => exec_writeback_of_rd_zero (i := .lw rd ra rb imm) hs rfl⟩

/-- Settles O11: sw, by the operation of each stage. -/
theorem swCompletesInEveryStage : Obligations.SwCompletesInEveryStage := fun rd ra rb imm _ =>
  ⟨exec_fetch (.sw rd ra rb imm), exec_decode (.sw rd ra rb imm), exec_execute (.sw rd ra rb imm),
    exec_memory (.sw rd ra rb imm), exec_writeback (.sw rd ra rb imm)⟩

/-- Settles O12: beq, by the operation of each stage; Execute split by its two operands. -/
theorem beqCompletesInEveryStage : Obligations.BeqCompletesInEveryStage := by
  intro rd ra rb imm s i
  refine ⟨exec_fetch i, exec_decode i, fun hs heq => ?_, fun hs hne => ?_, exec_memory i,
    exec_writeback i⟩
  · have hab : operandA i.ra s = operandB i.rb s := heq
    rw [exec_execute i hs, execFunction_of_beq_taken (i := i) rfl hab]
    rfl
  · have hab : operandA i.ra s ≠ operandB i.rb s := hne
    rw [exec_execute i hs, execFunction_of_beq_not_taken (i := i) rfl hab]
    rfl

/-- Settles O13: at most one write, to `rd` in Writeback; no store; the rest by the common frame. -/
theorem frameOfAddSubAndLw : Obligations.FrameOfAddSubAndLw := by
  intro rd ra rb imm i s t hi h
  have hrd : i.rd = rd := by obtain rfl | rfl | rfl := hi <;> rfl
  have hop : i.op ≠ .sw := by obtain rfl | rfl | rfl := hi <;> exact nofun
  refine ⟨fun q hq => ?_, fun a => by rw [exec_mem_of_no_store h hop], exec_frame h⟩
  obtain hsame | ⟨hs, -, v, hwrite⟩ := exec_regs_cases h
  · rw [hsame]
  · rw [hwrite, hrd]
    obtain hne | rfl | hstage := hq
    · exact readReg_writeReg_other _ hne v
    · rw [readReg_zero, readReg_zero]
    · exact absurd hs hstage

/-- Settles O14: neither writes nor stores; the rest by the common frame. -/
theorem frameOfNopAndBeq : Obligations.FrameOfNopAndBeq := by
  intro rd ra rb imm i s t hi h
  have hwrites : writesReg i.op = false := by obtain rfl | rfl := hi <;> rfl
  have hop : i.op ≠ .sw := by obtain rfl | rfl := hi <;> exact nofun
  exact ⟨exec_regs_of_no_write h hwrites, fun a => by rw [exec_mem_of_no_store h hop], exec_frame h⟩

/-- Settles O15: no register write; one store, in the Memory step; the rest by the common frame. -/
theorem frameOfSw : Obligations.FrameOfSw := by
  intro rd ra rb imm s t h
  refine ⟨exec_regs_of_no_write h rfl, fun a ha => ?_, exec_frame h⟩
  obtain hsame | ⟨hs, -, hstore⟩ := exec_mem_cases h
  · rw [hsame]
  · rw [hstore]
    obtain hne | hstage := ha
    · exact memRead_memWrite_other _ _ hne
    · exact absurd hs hstage

/-- A step of the machine writes no program store. -/
theorem step_prog {s t : State} (h : step s = .next t) : t.prog = s.prog := by
  obtain ⟨-, rfl⟩ | ⟨-, rfl⟩ := step_cases h <;> rfl

/-- Settles O30: the common frame for an instruction, and R123 for a cycle. -/
theorem programStoreIsImmutable : Obligations.ProgramStoreIsImmutable :=
  ⟨fun _ _ _ h => (exec_frame h).1, fun _ _ h => step_prog h⟩

end Sys2Proof.Machine
end

section
/-! SUPPORT. A cycle as the run of five instructions' meanings: each step of the cycle asks for the meaning of
the instruction in its latch, on the state that the step before it left. -/

namespace Sys2Proof.Machine

/-! ### What each step hands on -/

/-- What a step of the cycle leaves for the later ones to read as it stood before the cycle. -/
def HandsOn (s t : State) : Prop := t.cur = s.cur ∧ t.prog = s.prog ∧ t.pc = s.pc

/-- The interlock reads the current latches alone (R44, R115). -/
theorem HandsOn.stallSignal_eq {s t : State} (h : HandsOn s t) : stallSignal t = stallSignal s := by
  obtain ⟨hcur, -⟩ := h
  rw [stallSignal, stallSignal, hcur]

/-- A meaning asked for under a condition: it answers a next state, or the alternative is taken. -/
theorem exec_or_skip (c : Bool) (i : Instr) (s u : State) :
    ∃ t, (if c then exec i s else .next u) = .next t ∧ (c = true → exec i s = .next t) ∧
      (c = false → t = u) := by
  cases c with
  | true =>
    obtain ⟨t, ht⟩ := exec_next i s
    exact ⟨t, ht, fun _ => ht, nofun⟩
  | false => exact ⟨u, rfl, nofun, fun _ => rfl⟩

section
variable {s0 s : State}

/-- Step 1, Writeback. -/
theorem writebackPhase_runs (s : State) : ∃ t, writebackPhase s = .next t ∧ HandsOn s t ∧
    (s.cur.memwb.valid = true → exec s.cur.memwb.ins.ins { s with stage := .writeback } = .next t) ∧
    (s.cur.memwb.valid = false → t = s) := by
  obtain ⟨t, ht, hclauses⟩ :=
    exec_or_skip s.cur.memwb.valid s.cur.memwb.ins.ins { s with stage := .writeback } s
  refine ⟨t, ht, ?_, hclauses⟩
  obtain ⟨st, heq⟩ := writebackPhase_eq s
  cases heq.symm.trans ht
  exact ⟨rfl, rfl, rfl⟩

/-- Step 2, Memory, on what the cycle that started from `s0` has handed on. -/
theorem memoryPhase_runs (h : HandsOn s0 s) : ∃ t, memoryPhase s = .next t ∧ HandsOn s0 t ∧
    (s0.cur.exmem.valid = true → exec s0.cur.exmem.ins.ins { s with stage := .memory } = .next t) ∧
    (s0.cur.exmem.valid = false → t = { s with nxt := { s.nxt with memwb := MemWbLatch.invalid } }) := by
  obtain ⟨t, ht, hclauses⟩ :=
    exec_or_skip s.cur.exmem.valid s.cur.exmem.ins.ins { s with stage := .memory } _
  have hon : HandsOn s0 t := by
    obtain ⟨st, heq⟩ := memoryPhase_eq s
    cases heq.symm.trans ht
    exact h
  obtain ⟨hcur, -⟩ := h
  rw [← hcur]
  exact ⟨t, ht, hon, hclauses⟩

/-- Step 3, Execute, on what the cycle that started from `s0` has handed on. -/
theorem executePhase_runs (h : HandsOn s0 s) : ∃ t, executePhase s = .next t ∧ HandsOn s0 t ∧
    (s0.cur.idex.valid = true → exec s0.cur.idex.ins.ins { s with stage := .execute } = .next t) ∧
    (s0.cur.idex.valid = false → t = { s with nxt := { s.nxt with exmem := ExMemLatch.invalid } }) := by
  obtain ⟨t, ht, hclauses⟩ :=
    exec_or_skip s.cur.idex.valid s.cur.idex.ins.ins { s with stage := .execute } _
  have hon : HandsOn s0 t := by
    obtain ⟨st, heq⟩ := executePhase_eq s
    cases heq.symm.trans ht
    exact h
  obtain ⟨hcur, -⟩ := h
  rw [← hcur]
  exact ⟨t, ht, hon, hclauses⟩

/-- Step 4, Decode, on what the cycle that started from `s0` has handed on; it leaves the signals of the
branch as Execute set them. -/
theorem decodePhase_runs (h : HandsOn s0 s) : ∃ t, decodePhase s = .next t ∧ HandsOn s0 t ∧
    takenSignal t = takenSignal s ∧ targetSignal t = targetSignal s ∧
    (s0.cur.ifid.valid = true → stallSignal s0 = false → takenSignal s = false →
      exec s0.cur.ifid.ins.ins { s with stage := .decode } = .next t) ∧
    (s0.cur.ifid.valid = false ∨ stallSignal s0 = true ∨ takenSignal s = true →
      t = { s with nxt := { s.nxt with idex := IdExLatch.invalid } }) := by
  obtain ⟨t, ht, hrun, hskip⟩ :=
    exec_or_skip (s.cur.ifid.valid && !stallSignal s && !takenSignal s) s.cur.ifid.ins.ins
      { s with stage := .decode } _
  have hon : HandsOn s0 t ∧ takenSignal t = takenSignal s ∧ targetSignal t = targetSignal s := by
    obtain ⟨st, heq⟩ := decodePhase_eq s
    cases heq.symm.trans ht
    exact ⟨h, rfl, rfl⟩
  obtain ⟨hon, htaken, htarget⟩ := hon
  rw [← h.stallSignal_eq]
  obtain ⟨hcur, -⟩ := h
  rw [← hcur]
  refine ⟨t, ht, hon, htaken, htarget, fun hv hs hn => hrun (by simp [hv, hs, hn]), fun h => hskip ?_⟩
  obtain h | h | h := h <;> simp [h]

end

/-! ### Fetch, by the first case of R119 that applies -/

section
variable {s : State}

theorem fetchPhase_of_taken (ht : takenSignal s = true) : fetchPhase s =
    .next { s with pc := targetSignal s, nxt := { s.nxt with ifid := IfIdLatch.invalid } } :=
  if_pos ht

theorem fetchPhase_of_stall (ht : takenSignal s = false) (hs : stallSignal s = true) : fetchPhase s =
    .next { s with nxt := { s.nxt with ifid := s.cur.ifid } } := by
  simp [fetchPhase, ht, hs]

theorem fetchPhase_of_some {i : Instr} (ht : takenSignal s = false) (hs : stallSignal s = false)
    (hi : fetchAt s.prog s.pc = some i) : fetchPhase s = exec i { s with stage := .fetch } := by
  simp [fetchPhase, ht, hs, hi, execIn]

theorem fetchPhase_of_none (ht : takenSignal s = false) (hs : stallSignal s = false)
    (hi : fetchAt s.prog s.pc = none) : fetchPhase s =
      .next { s with nxt := { s.nxt with ifid := IfIdLatch.invalid } } := by
  simp [fetchPhase, ht, hs, hi]

/-- Two answers of one step are the same next state. -/
theorem next_unique {o : Host.Outcome State Fault Refusal} {t u : State} (h : o = .next t)
    (h' : o = .next u) : t = u := by
  rw [h] at h'
  cases h'
  rfl

/-- Step 5, Fetch, on what the cycle that started from `s0` has handed on and the signals of its branch. -/
theorem fetchPhase_runs {s0 : State} {taken : Bool} {target : Int} (h : HandsOn s0 s)
    (htaken : takenSignal s = taken) (htarget : targetSignal s = target) : ∃ t, fetchPhase s = .next t ∧
    (taken = true →
      t = { s with pc := target, nxt := { s.nxt with ifid := IfIdLatch.invalid } }) ∧
    (taken = false → stallSignal s0 = true → t = { s with nxt := { s.nxt with ifid := s0.cur.ifid } }) ∧
    (∀ i, taken = false → stallSignal s0 = false → fetchAt s0.prog s0.pc = some i →
      exec i { s with stage := .fetch } = .next t) ∧
    (taken = false → stallSignal s0 = false → fetchAt s0.prog s0.pc = none →
      t = { s with nxt := { s.nxt with ifid := IfIdLatch.invalid } }) := by
  subst htaken htarget
  rw [← h.stallSignal_eq]
  obtain ⟨hcur, hprog, hpc⟩ := h
  rw [← hcur, ← hprog, ← hpc]
  obtain ⟨st, heq⟩ := fetchPhase_eq s
  exact ⟨_, heq, fun ht => next_unique heq (fetchPhase_of_taken ht),
    fun ht hs => next_unique heq (fetchPhase_of_stall ht hs),
    fun i ht hs hi => (fetchPhase_of_some ht hs hi).symm.trans heq,
    fun ht hs hi => next_unique heq (fetchPhase_of_none ht hs hi)⟩

end

/-! ### The whole cycle -/

/-- The four older steps one after another. -/
theorem olderSteps_of_phases {s s1 s2 s3 s4 : State} (h1 : writebackPhase s = .next s1)
    (h2 : memoryPhase s1 = .next s2) (h3 : executePhase s2 = .next s3) (h4 : decodePhase s3 = .next s4) :
    olderSteps s = .next s4 := by
  rw [olderSteps, h1, andThen_next, h2, andThen_next, h3, andThen_next, h4]

/-- A step of an unfinished run is the four older steps, the Fetch step and the commit. -/
theorem step_of_phases {s t u : State} (hdone : done s = false) (holder : olderSteps s = .next t)
    (hfetch : fetchPhase t = .next u) : step s = .next (commit u) := by
  rw [step, if_neg (Bool.not_eq_true _ ▸ hdone), cycle, holder, andThen_next, hfetch, andThen_next]

/-- Settles O16: the five states are those after the five steps. -/
theorem stepRunsTheInstructionOfEveryStage : Obligations.StepRunsTheInstructionOfEveryStage := by
  intro s hdone
  obtain ⟨s1, h1, hon1, hwriteback, hwriteback'⟩ := writebackPhase_runs s
  obtain ⟨s2, h2, hon2, hmemory, hmemory'⟩ := memoryPhase_runs hon1
  obtain ⟨s3, h3, hon3, hexecute, hexecute'⟩ := executePhase_runs hon2
  obtain ⟨s4, h4, hon4, htaken, htarget, hdecode, hdecode'⟩ := decodePhase_runs hon3
  obtain ⟨s5, h5, hredirect, hhold, hfetch, hnone⟩ := fetchPhase_runs hon4 htaken htarget
  exact ⟨s1, s2, s3, s4, s5, step_of_phases hdone (olderSteps_of_phases h1 h2 h3 h4) h5,
    hwriteback, hwriteback', hmemory, hmemory', hexecute, hexecute', hdecode, hdecode',
    hredirect, hhold, hfetch, hnone⟩

/-! ### A placed instruction -/

/-- The four older steps hand on `pc`, the program and the current latches, and set `taken` by R123. -/
theorem olderSteps_handsOn (s : State) : ∃ t, olderSteps s = .next t ∧ HandsOn s t ∧
    takenSignal t = ruleTaken s := by
  obtain ⟨_, hwriteback⟩ := writebackPhase_eq s
  obtain ⟨_, hmemory⟩ := memoryPhase_eq _
  obtain ⟨_, hexecute⟩ := executePhase_eq _
  obtain ⟨_, hdecode⟩ := decodePhase_eq _
  exact ⟨_, olderSteps_of_phases hwriteback hmemory hexecute hdecode, ⟨rfl, rfl, rfl⟩, rfl⟩

/-- The store holds the instruction at the index where it was put. -/
theorem getElem?_storeAt (prog : List Instr) (k : Nat) (i : Instr) : (storeAt prog k i)[k]? = some i := by
  induction k generalizing prog with
  | zero => cases prog <;> rfl
  | succ k ih =>
    cases prog with
    | nil => exact ih []
    | cons j rest => exact ih rest

/-- The index where an instruction is placed: `pc`, or 0 where `pc` is negative. -/
theorem placeForFetch_pc_eq (i : Instr) (s : State) : (placeForFetch i s).pc = max s.pc 0 := by
  rw [placeForFetch_pc]
  split <;> omega

/-- The next Fetch finds the placed instruction. -/
theorem fetchAt_placeForFetch (i : Instr) (s : State) :
    fetchAt (placeForFetch i s).prog (placeForFetch i s).pc = some i := by
  have hindex : (max s.pc 0).toNat = s.pc.toNat := by omega
  rw [placeForFetch_pc_eq, placeForFetch_prog, fetchAt, if_pos (le_max_right _ _), hindex,
    getElem?_storeAt]

/-- A decoded word, as the placing reads it. -/
theorem withFetchWord_of_decode {w : Word} {i : Instr} (h : decode w = .ok i) (s : State) :
    s.withFetchWord 32 w.toNat = placeForFetch i s := by
  have hword : BitVec.ofNat 32 (w.toNat % 2 ^ 32) = w := by
    rw [Nat.mod_eq_of_lt w.isLt, BitVec.ofNat_toNat, BitVec.setWidth_eq]
  simp only [State.withFetchWord, decodeTableWord, hword, h]

/-- A run that has an instruction to fetch is not over. -/
theorem not_done_of_fetchAt {s : State} {i : Instr} (h : fetchAt s.prog s.pc = some i) :
    done s = false := by
  rw [← Bool.not_eq_true, done_iff]
  rintro ⟨hout, -⟩
  rw [fetchAt_of_outside hout] at h
  cases h

/-- Settles O17: with ID/EX empty neither a stall nor a taken branch keeps Fetch from the placed
instruction. -/
theorem stepRunsTheDecodedInstruction : Obligations.StepRunsTheDecodedInstruction := by
  intro s w i hdecode p
  have hp : p = placeForFetch i s := withFetchWord_of_decode hdecode s
  have hidex : p.cur.idex.valid = false := by rw [hp]; rfl
  have hfetchAt : fetchAt p.prog p.pc = some i := by rw [hp]; exact fetchAt_placeForFetch i s
  obtain ⟨o, holder, hon, htaken⟩ := olderSteps_handsOn p
  have hstallO : stallSignal o = false := hon.stallSignal_eq.trans (no_stall_of_invalid (.inr hidex))
  have htakenO : takenSignal o = false := htaken.trans (ruleTaken_of_invalid hidex)
  obtain ⟨-, hprog, hpc⟩ := hon
  have hrun : exec i { o with stage := .fetch } = .next (fetchStage i { o with stage := .fetch }) :=
    exec_fetch i rfl
  have hfetch := fetchPhase_of_some htakenO hstallO (by rw [hprog, hpc]; exact hfetchAt)
  refine ⟨o, _, holder, hrun, step_of_phases (not_done_of_fetchAt hfetchAt) holder (hfetch.trans hrun),
    ?_, ?_, by rw [hp]; exact placeForFetch_pc_eq i s⟩
  · rw [← hpc]; rfl
  · rw [← hpc]; rfl

end Sys2Proof.Machine
end
